-- ==== Sys2Proof/Word.lean ====
section
/-! DEFINITION. The W-bit word of the engine (spec/00_scope.md R7 to R9). Every port, register, operand and result is
one such word. It is unsigned: nothing is ever read as two's complement (R8). Bit `i` is `v.getLsbD i`, bit 0 the
least significant (R7). `a ^ b` is `a ^^^ b`; `a << k`, truncated to W bits, is `a <<< k` (R9). -/

namespace Sys2Proof

/-- A W-bit unsigned word (R5, R8). -/
abbrev Word (W : Nat) := BitVec W

/-- `MASK_W = 2^W - 1` (R6), the largest operand a command can carry (R46). -/
def maskW (W : Nat) : Nat := 2 ^ W - 1

/-- `zext_W(v)`: a constant padded with zero bits to W bits (R8). -/
def zextW (W v : Nat) : Word W := BitVec.ofNat W v

end Sys2Proof
end

