-- ==== Sys2Proof/Config.lean ====
section
/-! DEFINITION. What is fixed for one engine (the width `W`, R5), the constants of R6, how the model treats the
reserved opcode (log entry 5), and the free values of the points the spec leaves unspecified (log entries 3 and 4). -/

namespace Sys2Proof

/-- The two treatments the spec gives the reserved opcode `0b11`.
`stop` is what it asks of a model: the fault `IllegalCommand`, so that no claim is proved of a run past it
(60_exceptions.md R68, 92_eei_decisions.md D7, 93_implementation_defined.md U8). The reference configuration has it.
`answer` is the hardware's own behaviour: the response `(0, 0, 1)`, no state change, and the engine goes on
(40_divider.md R60; R68, "The next command is accepted normally"; 95_test_vectors.md P3). DESIGN CHOICE (log entry 5):
it is modelled too, in a configuration that asks for it by name. -/
inductive IllegalTreatment where
  | answer
  | stop
  deriving DecidableEq, Repr

/-- What is fixed for one engine. -/
structure Config where
  /-- The word width (R5): an open parameter of the spec, at least 8. -/
  W : Nat
  /-- How the reserved opcode is treated (log entry 5). -/
  onIllegal : IllegalTreatment
  deriving DecidableEq, Repr

/-- R5: `W >= 8`, so that the 8-bit reset divisor fits. -/
def Config.wf (c : Config) : Bool := decide (8 ≤ c.W)

/-- R5: the reference configuration, `W = 64`; the reserved opcode is the fault `IllegalCommand`, as R68 asks. -/
def Config.reference : Config where
  W := 64
  onIllegal := .stop

/-- The same engine, the reserved opcode answered as the hardware answers it (R60; log entry 5). -/
def Config.answering : Config where
  W := 64
  onIllegal := .answer

/-- `DEFAULT_DIVISOR` (R6, R18): `0b10111011` = `0xBB`, zero-extended to W bits. -/
def Config.defaultDivisor (W : Nat) : Word W := zextW W 0b10111011

/-- `DB_DEFAULT` (R6): the bit length of the default divisor. -/
def Config.defaultDivisorBits : Nat := 8

/-- FREE VALUE (log entries 3 and 4): the `n`-th value that the spec calls unspecified. It has no body, so nothing can
be proved of it; `State.draws` counts how many have been used. -/
opaque Config.unspecified : Nat → Nat

/-- The `n`-th unspecified W-bit word. -/
def Config.unspecifiedWord (W n : Nat) : Word W := BitVec.ofNat W (Config.unspecified n)

/-- The `n`-th unspecified bit. -/
def Config.unspecifiedBit (n : Nat) : Bool := (Config.unspecified n).testBit 0

end Sys2Proof
end

