-- ==== Sys2Proof/Syntax.lean ====
section
/-! DEFINITION. The commands of the engine: one constructor per row of spec/opcode_table.json (30_encoding.md R42).
Each command has one operand, its data field (R40, R41), written as the unsigned number of the text form
(R46: "an integer literal … in the range `0 .. 2^W - 1`"). -/

namespace Sys2Proof

/-- A command (R42). -/
inductive Instr where
  /-- ENCODE, `op = 0b00`: append the check remainder to `value` (R54). -/
  | encode (value : Nat)
  /-- VERIFY, `op = 0b01`: has `value` a zero remainder? (R56) -/
  | verify (value : Nat)
  /-- SETDIV, `op = 0b10`: replace the divisor (R58). -/
  | setdiv (newDivisor : Nat)
  /-- RSVD, `op = 0b11`: the reserved opcode; its data is ignored (R60). -/
  | rsvd (data : Nat)
  deriving DecidableEq, Repr

/-- The data field of a command (R40, R41). -/
def Instr.data : Instr → Nat
  | .encode value => value
  | .verify value => value
  | .setdiv newDivisor => newDivisor
  | .rsvd data => data

/-- The opcode of a command (R42). -/
def Instr.op : Instr → BitVec 2
  | .encode _ => 0b00#2
  | .verify _ => 0b01#2
  | .setdiv _ => 0b10#2
  | .rsvd _ => 0b11#2

end Sys2Proof
end

