-- ==== Sys2Proof/WellFormed.lean ====
section
/-! DEFINITION. Which commands exist at width W: those whose operand is in `0 .. 2^W - 1` (30_encoding.md R41, R46).
A larger literal is rejected, never truncated (R46). -/

namespace Sys2Proof

/-- The operand fits the W-bit data field (R41, R46). -/
def Instr.wellFormed (W : Nat) (i : Instr) : Bool := decide (i.data < 2 ^ W)

end Sys2Proof
end

