-- ==== Sys2Proof/Decode.lean ====
section
/-! DEFINITION. The command word `cmd = {cmd_data, cmd_op}` of W + 2 bits (30_encoding.md R40), its decoder, and the
encoder written from the same table. Decoding is total and rejects no word (R43); a number that is no command word,
because it needs more than W + 2 bits, is rejected by name. The engine has no byte order (20_memory.md R27): a command
word is one number, bit 0 its least significant bit. -/

namespace Sys2Proof

/-- Why a number is not read as a command. -/
inductive DecodeError where
  /-- It has a bit above bit W + 1, so it is no command word at this width (R40, R44). -/
  | wordTooWide
  deriving DecidableEq, Repr

/-- `{data, op}` with `data` in the high bits (R7, R40). -/
def commandWord {W : Nat} (data : Word W) (op : BitVec 2) : BitVec (W + 2) := data ++ op

/-- The `op` field, `cmd[1:0]` (R40). -/
def opField {W : Nat} (cmd : BitVec (W + 2)) : BitVec 2 := cmd.extractLsb' 0 2

/-- The `data` field, `cmd[W+1:2]` (R40). -/
def dataField {W : Nat} (cmd : BitVec (W + 2)) : Word W := cmd.extractLsb' 2 W

/-- The command that opcode `op` with operand `data` is (R42): the match on the two opcode bits is the table's
`match = op`, `mask = 0x3`. The data bits take no part in it. -/
def decodeFields (op : BitVec 2) (data : Nat) : Instr :=
  match op.getLsbD 1, op.getLsbD 0 with
  | false, false => .encode data
  | false, true => .verify data
  | true, false => .setdiv data
  | true, true => .rsvd data

/-- Decode a command word: total, one row for each of the `2^(W+2)` words (R43). -/
def decode {W : Nat} (cmd : BitVec (W + 2)) : Instr := decodeFields (opField cmd) (dataField cmd).toNat

/-- Encode a command, from the same table (R40, R42). Meant for well-formed commands. -/
def encode (W : Nat) (i : Instr) : BitVec (W + 2) := commandWord (zextW W i.data) i.op

/-- Decode a number as a command word of an engine of width W. -/
def decodeNumber (W cmd : Nat) : Except DecodeError Instr :=
  if cmd < 2 ^ (W + 2) then .ok (decode (BitVec.ofNat (W + 2) cmd)) else .error .wordTooWide

/-- What the decoder reads, at the reference width, from the instruction whose low `nbits` bits are `w` and whose
other bits are 0 (the host's question; bits are numbered as in spec/opcode_table.json). Bits of `w` above `nbits` are
not looked at; none where a bit above W+1 remains (DESIGN CHOICE, log entries 8 and 14). -/
def decodeTableWord (nbits w : Nat) : Option Instr :=
  match decodeNumber Config.reference.W (w % 2 ^ nbits) with
  | .ok i => some i
  | .error _ => none

end Sys2Proof
end

