-- ==== Sys2Proof/Machine/Datapath.lean ====
section
/-! DEFINITION. The datapath primitives every command uses (spec/40_divider.md section 1): `NUMBITS` (R48, R49),
`REDUCE` (R50), and ENCODE's widening (R53). -/

namespace Sys2Proof.Machine

variable {W : Nat}

/-- Scan down from bit `n - 1`: the index of the highest set bit below `n`, plus one; 0 if there is none. -/
def scanBits (v : Word W) : Nat → Nat
  | 0 => 0
  | n + 1 => if v.getLsbD n then n + 1 else scanBits v n

/-- `NUMBITS(v)`, the bit length: 0 for 0, else the index of the highest set bit plus one (R48). An exact bit scan,
never a logarithm (R49). -/
def numBits (v : Word W) : Nat := scanBits v W

theorem scanBits_le (v : Word W) (n : Nat) : scanBits v n ≤ n := by
  induction n with
  | zero => exact Nat.le_refl 0
  | succ n ih => unfold scanBits; split <;> omega

/-- `NUMBITS(v)` is in `0 .. W` (R48). -/
theorem numBits_le (v : Word W) : numBits v ≤ W := scanBits_le v W

/-- `NUMBITS(v)` as the content of the register `NB` (R22). -/
def numBitsReg (v : Word W) : Fin (W + 1) := ⟨numBits v, Nat.lt_succ_of_le (numBits_le v)⟩

/-- The divisor moved under the top set bit of `crc`, `d << (nb - db)` (R50). Formed only when `nb >= db`, so the
shift amount is never negative (93_implementation_defined.md U1). -/
def aligned (d crc : Word W) : Word W := d <<< (numBits crc - numBits d)

/-- The body of R50's loop, the source's guard on the aligned bit length included. -/
def reducePass (d crc : Word W) : Word W :=
  if numBits (aligned d crc) = numBits crc then crc ^^^ aligned d crc else crc

/-- R50's loop, at most `fuel` passes of it: it goes on while `nb >= db`. -/
def reduceLoop (d : Word W) : Nat → Word W → Word W
  | 0, crc => crc
  | fuel + 1, crc => if numBits d ≤ numBits crc then reduceLoop d fuel (reducePass d crc) else crc

/-- `REDUCE(x, d)`, the GF(2) remainder (R50), for `d != 0`. A pass lowers the bit length, so W passes are enough
(R51). -/
def reduce (x d : Word W) : Word W := reduceLoop d W x

/-- How many passes R50's loop makes, at most `fuel` (R51, R89). -/
def passCount (d : Word W) : Nat → Word W → Nat
  | 0, _ => 0
  | fuel + 1, crc => if numBits d ≤ numBits crc then passCount d fuel (reducePass d crc) + 1 else 0

/-- The number of passes `REDUCE(x, d)` makes. -/
def reducePasses (x d : Word W) : Nat := passCount d W x

/-- ENCODE's widened value, `value << (db - 1)`, truncated to W bits (R53). -/
def widen (value d : Word W) : Word W := value <<< (numBits d - 1)

/-- ENCODE's codeword, `wide ^ rem` (R54). -/
def codeword (value d : Word W) : Word W := widen value d ^^^ reduce (widen value d) d

end Sys2Proof.Machine
end

