-- ==== Sys2Proof/Machine/Flags.lean ====
section
/-! DEFINITION. The one flag computation of the spec. The engine has no status flags and no condition codes
(10_state.md R14); VERIFY's result goes out as the response bit `rsp_flag` of its own response. -/

namespace Sys2Proof.Machine

/-- `(rem == 0) ? 1 : 0` (40_divider.md R56). -/
def zeroRemainder {W : Nat} (rem : Word W) : Bool := decide (rem = 0)

end Sys2Proof.Machine
end

