-- ==== Sys2Proof/Machine/State.lean ====
section
/-! DEFINITION. Everything the spec gives the engine (spec/10_state.md), the host's side of its ports, and the model's
own bookkeeping; the reasons a step can stop; the state after reset. There are no general registers, no program
counter, no flags, no address space (R12, R13, R14, R23, R24). -/

namespace Sys2Proof.Machine

/-- `IF_STATE` (R21). -/
inductive IfState where
  /-- ready for a command -/
  | idle
  /-- computing the accepted command -/
  | busy
  /-- presenting its response -/
  | resp
  deriving DecidableEq, Repr

/-- A response, `(data, flag, err)` (R20; 30_encoding.md R45). -/
structure Response (W : Nat) where
  data : Word W
  flag : Bool
  err : Bool
  deriving DecidableEq, Repr

/-- What holds at one rising edge of `clk`: the input ports of R19, and the one thing the spec leaves open about the
engine's own timing, whether a command in `BUSY` needs yet another cycle (R21, R89; log entry 6). -/
structure Edge (W : Nat) where
  /-- port `rst` -/
  rst : Bool
  /-- port `cmd_valid` -/
  cmdValid : Bool
  /-- port `cmd_op` -/
  cmdOp : BitVec 2
  /-- port `cmd_data` -/
  cmdData : Word W
  /-- port `rsp_ready` -/
  rspReady : Bool
  /-- not a port: in `BUSY`, the command has not been computed yet at this edge -/
  stall : Bool
  deriving DecidableEq, Repr

/-- An edge at which the host does nothing and no command needs another cycle. -/
def Edge.quiet {W : Nat} : Edge W where
  rst := false
  cmdValid := false
  cmdOp := 0
  cmdData := 0
  rspReady := false
  stall := false

/-- The registers of an engine of width W. -/
structure Engine (W : Nat) where
  /-- `DIV`, the divisor register (R15) -/
  div : Word W
  /-- `IF_STATE`, the interface state (R21) -/
  ifState : IfState
  /-- `RSP_DATA` (R20) -/
  rspData : Word W
  /-- `RSP_FLAG` (R20) -/
  rspFlag : Bool
  /-- `RSP_ERR` (R20) -/
  rspErr : Bool
  /-- `OP_R`, the latched opcode (R22) -/
  opR : BitVec 2
  /-- `DATA_R`, the latched operand (R22) -/
  dataR : Word W
  /-- `DIV_S`, the divisor snapshot taken at acceptance (R22; 20_memory.md R34) -/
  divS : Word W
  /-- `CRC`, the working remainder (R22) -/
  crc : Word W
  /-- `NB`, its bit length, in `0 .. W` (R22) -/
  nb : Fin (W + 1)
  deriving DecidableEq, Repr

/-- The machine: one engine, what its host does at the coming edges, what the host has received, and the model's own
bookkeeping. -/
structure State where
  /-- fixed for the engine: no step changes it -/
  cfg : Config
  /-- the engine's registers -/
  eng : Engine cfg.W
  /-- the coming edges, the next one first; after the last one every edge is quiet (log entry 7) -/
  edges : List (Edge cfg.W)
  /-- the responses delivered so far, in order: the observation of a run (70_reset_and_hazards.md R90) -/
  delivered : List (Response cfg.W)
  /-- has there been a reset since power-up? (R26; log entry 9) -/
  live : Bool
  /-- the model's own: how many unspecified values have been drawn (log entries 3 and 4) -/
  draws : Nat
  deriving DecidableEq, Repr

/-- Why the machine stops. -/
inductive Fault where
  /-- `IllegalCommand` (60_exceptions.md R68): the reserved opcode, in a configuration that stops there, as the
  reference configuration does (log entry 5). Raised by `execRsvd`. Safe: the hardware goes on, so the stop proves
  nothing of it. -/
  | illegalCommand
  /-- `REDUCE(x, 0)` (93_implementation_defined.md U3): unreachable after a reset. Raised by `execEncode` and
  `execVerify`. Safe: U3 asks for the fault. -/
  | zeroDivisor
  /-- A command presented before the first reset after power-up (10_state.md R26; U11). Raised by `clockEdge`. Safe:
  the spec gives it no outcome. -/
  | beforeFirstReset
  deriving DecidableEq, Repr

/-- Why an instruction is given no meaning. -/
inductive Refusal where
  /-- An instruction still without a meaning. No arm of `exec` answers it any more. Safe. -/
  | notModelled (mnemonic : String)
  /-- The operand needs more than W bits, so this is no command of this engine (30_encoding.md R46: "A literal out of
  range is rejected by the text form; it is never truncated"). Raised by `execEncode`, `execVerify` and `execSetdiv`;
  no decoded command word raises it. Safe. -/
  | operandTooWide
  deriving DecidableEq, Repr

/-- The registers after reset (R25): `DIV = 0xBB` and `IDLE` are the spec's. The spec calls the others unspecified;
zero is the model's value for them here. DESIGN CHOICE (log entry 2). -/
def Engine.reset (W : Nat) : Engine W where
  div := Config.defaultDivisor W
  ifState := .idle
  rspData := 0
  rspFlag := false
  rspErr := false
  opR := 0
  dataR := 0
  divS := 0
  crc := 0
  nb := 0

/-- The machine right after a reset, in configuration `c`, with a host that does nothing. -/
def State.resetAt (c : Config) : State where
  cfg := c
  eng := Engine.reset c.W
  edges := []
  delivered := []
  live := true
  draws := 0

/-- The machine right after reset, in the reference configuration (R25, R79; R5). -/
def State.reset : State := State.resetAt Config.reference

/-- The machine at power-up (R26): the registers hold `anything`, and there has been no reset. -/
def State.powerUp (c : Config) (anything : Engine c.W) : State where
  cfg := c
  eng := anything
  edges := []
  delivered := []
  live := false
  draws := 0

/-- Put the registers `e` into `s`. -/
def State.withEngine (s : State) (e : Engine s.cfg.W) : State := { s with eng := e }

end Sys2Proof.Machine
end

