-- ==== Sys2Proof/Machine/Operands.lean ====
section
/-! DEFINITION. The operand of a command and the divisor it computes with (30_encoding.md R41; 20_memory.md R34). A
command has one operand form, its data field: no register, no immediate, no address (R12, R24, R41). -/

namespace Sys2Proof.Machine

/-- The operand as a W-bit word, "exactly as it stands" (R41); none where the number needs more than W bits, so that
it is no operand at this width (R46; log entry 11). -/
def operand (W n : Nat) : Option (Word W) :=
  if n < 2 ^ W then some (zextW W n) else none

/-- Run `k` on the operand, or refuse the number that is none. -/
def withOperand (s : State) (n : Nat) (k : Word s.cfg.W → Host.Outcome State Fault Refusal) :
    Host.Outcome State Fault Refusal :=
  match operand s.cfg.W n with
  | some v => k v
  | none => .refused .operandTooWide

/-- Run `k` on the divisor of the command in flight, the snapshot `DIV_S` (R34). A reduction by 0 is the fault that
93_implementation_defined.md U3 asks for. -/
def withDivisor (s : State) (k : Word s.cfg.W → Host.Outcome State Fault Refusal) :
    Host.Outcome State Fault Refusal :=
  if s.eng.divS = 0 then .fault .zeroDivisor else k s.eng.divS

end Sys2Proof.Machine
end

