-- ==== Sys2Proof/Machine/Ops.lean ====
section
/-! DEFINITION. The named operations on the registers and the ports: the handshake (R19, R21), the answer of a command
(R20), the error answer (R68), reset (R79), and the host's side of a transfer. -/

namespace Sys2Proof.Machine

/-! The output ports (R19). -/

/-- Port `cmd_ready = (IF_STATE == IDLE) and not rst` (R19). -/
def Engine.cmdReady {W : Nat} (e : Engine W) (rst : Bool) : Bool := decide (e.ifState = .idle) && !rst

/-- Port `rsp_valid = (IF_STATE == RESP)` (R19). -/
def Engine.rspValid {W : Nat} (e : Engine W) : Bool := decide (e.ifState = .resp)

/-- The response registers as one response (R20). -/
def Engine.response {W : Nat} (e : Engine W) : Response W where
  data := e.rspData
  flag := e.rspFlag
  err := e.rspErr

/-- Ports `rsp_data`, `rsp_flag`, `rsp_err`: the response while `rsp_valid = 1`, and no value at any other time
(R20, R87). -/
def Engine.rspPorts {W : Nat} (e : Engine W) : Option (Response W) :=
  if e.rspValid then some e.response else none

/-- The response word `{rsp_err, rsp_flag, rsp_data}` (30_encoding.md R45). -/
def Response.word {W : Nat} (r : Response W) : BitVec (W + 2) :=
  BitVec.cast (by omega) (BitVec.ofBool r.err ++ (BitVec.ofBool r.flag ++ r.data))

/-- A command is accepted at an edge with `cmd_valid = 1` and `cmd_ready = 1` (R19). -/
def Edge.accepts {W : Nat} (x : Edge W) (e : Engine W) : Bool := x.cmdValid && e.cmdReady x.rst

/-- A response is delivered at an edge with `rsp_valid = 1` and `rsp_ready = 1` (R19). -/
def Edge.takes {W : Nat} (x : Edge W) (e : Engine W) : Bool := x.rspReady && e.rspValid

/-! What a command does to the registers. -/

/-- `respond(data, flag, err)` (R9, R20): the response registers are loaded and `BUSY` goes to `RESP` (R21). -/
def Engine.respond {W : Nat} (e : Engine W) (data : Word W) (flag err : Bool) : Engine W :=
  { e with rspData := data, rspFlag := flag, rspErr := err, ifState := .resp }

/-- `raise IllegalCommand(op)`: the error answer, `respond(0, 0, 1)` with no other change (R9, R68). The engine has no
trap: nothing is saved, no mode changes and control goes nowhere (R72, R73). -/
def Engine.raiseIllegalCommand {W : Nat} (e : Engine W) : Engine W := e.respond 0 false true

/-- The working registers after a reduction: `CRC` holds what the loop left, `NB` its bit length (R22, R50;
log entry 12). -/
def Engine.setWork {W : Nat} (e : Engine W) (rem : Word W) : Engine W :=
  { e with crc := rem, nb := numBitsReg rem }

/-- `DIV <- newDivisor`, refused silently for 0 (R15, R58). -/
def Engine.writeDiv {W : Nat} (e : Engine W) (newDivisor : Word W) : Engine W :=
  if newDivisor = 0 then e else { e with div := newDivisor }

/-- The latched command word, `{DATA_R, OP_R}` (R22, R40). -/
def Engine.latched {W : Nat} (e : Engine W) : BitVec (W + 2) := commandWord e.dataR e.opR

/-- The registers when `{data, op}` is accepted: opcode and operand are latched and `DIV` is copied into `DIV_S`
(R21, R22; 20_memory.md R34). -/
def Engine.latch {W : Nat} (e : Engine W) (op : BitVec 2) (data : Word W) : Engine W :=
  { e with opR := op, dataR := data, divS := e.div, ifState := .busy }

/-- The registers after a resetting edge (R79): `DIV = 0xBB`, `IDLE`, and every other register at an unspecified
value, the `n`-th and the seven after it (R25; log entry 3). -/
def Engine.afterReset (W n : Nat) : Engine W where
  div := Config.defaultDivisor W
  ifState := .idle
  rspData := Config.unspecifiedWord W n
  rspFlag := Config.unspecifiedBit (n + 1)
  rspErr := Config.unspecifiedBit (n + 2)
  opR := BitVec.ofNat 2 (Config.unspecified (n + 3))
  dataR := Config.unspecifiedWord W (n + 4)
  divS := Config.unspecifiedWord W (n + 5)
  crc := Config.unspecifiedWord W (n + 6)
  nb := Fin.ofNat (W + 1) (Config.unspecified (n + 7))

/-- The response registers at unspecified values, the `n`-th and the two after it: they have no value of their own
while `rsp_valid = 0` (R20, R87; log entry 4). -/
def Engine.loseResponse {W : Nat} (e : Engine W) (n : Nat) : Engine W :=
  { e with
    rspData := Config.unspecifiedWord W n
    rspFlag := Config.unspecifiedBit (n + 1)
    rspErr := Config.unspecifiedBit (n + 2) }

/-! What an edge does to the machine. -/

/-- The coming edge: the host's next one, or a quiet one when it has no more (log entry 7). -/
def State.edge (s : State) : Edge s.cfg.W := s.edges.headD Edge.quiet

/-- The machine once the coming edge is past. -/
def State.dropEdge (s : State) : State := { s with edges := s.edges.tail }

/-- The response registers lose their values: taken at every edge that leaves `rsp_valid = 0` (R87; log entry 4). -/
def State.loseResponse (s : State) : State :=
  { s with eng := s.eng.loseResponse s.draws, draws := s.draws + 3 }

/-- A resetting edge (R78, R79). The command in flight is abandoned and its response never delivered (R80); what the
host has received stays received. -/
def State.applyReset (s : State) : State :=
  { s with eng := Engine.afterReset s.cfg.W s.draws, live := true, draws := s.draws + 8 }

/-- An accepting edge (R19, R21). -/
def State.accept (s : State) (op : BitVec 2) (data : Word s.cfg.W) : State :=
  (s.withEngine (s.eng.latch op data)).loseResponse

/-- A delivering edge (R19, R21): the host receives the response and `RESP` goes to `IDLE`. -/
def State.deliver (s : State) : State :=
  State.loseResponse { s with
    eng := { s.eng with ifState := .idle }
    delivered := s.delivered ++ [s.eng.response] }

/-- Put a command in flight, so that the coming edge computes it: the registers are what accepting `cmd` leaves, the
engine counts as reset, and the coming edge is quiet. The log says how a command gets there from reset (entry 8). -/
def State.placeCommand (s : State) (cmd : BitVec (s.cfg.W + 2)) : State :=
  { s with
    eng := s.eng.latch (opField cmd) (dataField cmd)
    edges := Edge.quiet :: s.edges
    live := true }

end Sys2Proof.Machine
end

