-- ==== Sys2Proof/Machine/Check.lean ====
section
/-! DEFINITION. The commands that divide: ENCODE (spec/40_divider.md R54) and VERIFY (R56). Both read the divisor
snapshot and write only the response registers and the working registers. -/

namespace Sys2Proof.Machine

/-- ENCODE (R54): answers `(wide ^ rem, 0, 0)`. `DIV` is unchanged. The bits of `value` that the widening pushes out
are lost silently (R53, R66). -/
def execEncode (value : Nat) (s : State) : Host.Outcome State Fault Refusal :=
  withOperand s value fun v =>
    withDivisor s fun d =>
      .next (s.withEngine ((s.eng.setWork (reduce (widen v d) d)).respond (codeword v d) false false))

/-- VERIFY (R56): answers `(0, (rem == 0) ? 1 : 0, 0)`. `DIV` is unchanged. A flag of 0 is a result, not an error
(R69). -/
def execVerify (value : Nat) (s : State) : Host.Outcome State Fault Refusal :=
  withOperand s value fun v =>
    withDivisor s fun d =>
      .next (s.withEngine ((s.eng.setWork (reduce v d)).respond 0 (zeroRemainder (reduce v d)) false))

end Sys2Proof.Machine
end

