-- ==== Sys2Proof/Machine/Control.lean ====
section
/-! DEFINITION. The commands that do not divide: SETDIV (spec/40_divider.md R58) and the reserved opcode RSVD (R60). -/

namespace Sys2Proof.Machine

/-- SETDIV (R58): `DIV <- newDivisor` unless it is 0, and the answer `(0, 0, 0)` in either case (R65). -/
def execSetdiv (newDivisor : Nat) (s : State) : Host.Outcome State Fault Refusal :=
  withOperand s newDivisor fun v => .next (s.withEngine ((s.eng.writeDiv v).respond 0 false false))

/-- RSVD, whatever the operand: the fault `IllegalCommand`, which R68 and U8 ask of a model and which the reference
configuration raises; in a configuration that follows the hardware past it, the answer `(0, 0, 1)` and no other change
(R60; log entry 5). -/
def execRsvd (_data : Nat) (s : State) : Host.Outcome State Fault Refusal :=
  match s.cfg.onIllegal with
  | .answer => .next (s.withEngine s.eng.raiseIllegalCommand)
  | .stop => .fault .illegalCommand

end Sys2Proof.Machine
end

