-- ==== Sys2Proof/Machine/Dispatch.lean ====
section
/-! DEFINITION. One arm per command: its meaning. -/

namespace Sys2Proof.Machine

def exec (i : Instr) (s : State) : Host.Outcome State Fault Refusal :=
  match i with
  | .encode value => Sys2Proof.Machine.execEncode value s
  | .verify value => Sys2Proof.Machine.execVerify value s
  | .setdiv newDivisor => Sys2Proof.Machine.execSetdiv newDivisor s
  | .rsvd data => Sys2Proof.Machine.execRsvd data s

end Sys2Proof.Machine
end

