-- ==== Sys2Proof/Machine/Clock.lean ====
section
/-! DEFINITION. One rising edge of `clk` (spec/10_state.md R19, R21; spec/70_reset_and_hazards.md R78 to R84). The
edge at which a command in `BUSY` has been computed is where its meaning runs: `BUSY` is one atomic step, as R22 and
R89 allow. -/

namespace Sys2Proof.Machine

/-- An edge without reset of an engine that has been reset: accept in `IDLE`, compute in `BUSY`, deliver in `RESP`
(R21). -/
def interfaceEdge (s : State) (x : Edge s.cfg.W) : Host.Outcome State Fault Refusal :=
  match s.eng.ifState with
  | .idle => .next (if x.accepts s.eng then s.accept x.cmdOp x.cmdData else s.loseResponse)
  | .busy => if x.stall then .next s.loseResponse else exec (decode s.eng.latched) s
  | .resp => .next (if x.takes s.eng then s.deliver else s)

/-- One rising edge. Reset has priority over everything (60_exceptions.md R71). Before the first reset a command has
no defined outcome, which is the fault U11 asks for (R26); an edge without one leaves the state as unspecified as it
was (log entry 9). -/
def clockEdge (s : State) : Host.Outcome State Fault Refusal :=
  if s.edge.rst then .next s.dropEdge.applyReset
  else if s.live then interfaceEdge s.dropEdge s.edge
  else if s.edge.cmdValid then .fault .beforeFirstReset
  else .next s.dropEdge

end Sys2Proof.Machine
end

