-- ==== Sys2Proof/Machine/Step.lean ====
section
/-! DEFINITION. The step, one rising edge of `clk`, and how a command is put where the next step runs it. The engine
fetches nothing (spec/20_memory.md R37): a command comes in on the command port and is latched (log entry 8). -/

namespace Sys2Proof.Machine

/-- One rising edge of `clk`. -/
def step (s : State) : Host.Outcome State Fault Refusal := clockEdge s

/-- `s` with the command whose low `nbits` bits are `w`, and whose other bits are 0, latched in `BUSY`, so that the
next step runs it. DESIGN CHOICE (log entry 8): a command word has W + 2 bits and no other length (30_encoding.md R40),
so of a number that has more, the latches `DATA_R` and `OP_R` hold bits W+1 to 0 and the rest is dropped, while
`decodeNumber` rejects such a number; the spec says nothing of one. -/
def State.withFetchWord (s : State) (nbits w : Nat) : State :=
  s.placeCommand (BitVec.ofNat (s.cfg.W + 2) (w % 2 ^ nbits))

end Sys2Proof.Machine
end

