-- ==== Sys2Proof/Machine/Polynomial.lean ====
section
/-! DEFINITION. The polynomial reading of a word (spec/00_scope.md R10): the polynomial over GF(2) whose coefficient at
`x^i` is bit `i`. Only statements use it; nothing the step computes does. -/

namespace Sys2Proof.Machine

/-- `P_v(x) = sum over i of v[i] * x^i` (R10), a polynomial over GF(2), which is Mathlib's `ZMod 2`. -/
noncomputable def poly {W : Nat} (v : Word W) : Polynomial (ZMod 2) :=
  ∑ i ∈ Finset.range W, Polynomial.C (if v.getLsbD i then 1 else 0) * Polynomial.X ^ i

end Sys2Proof.Machine
end

