-- ==== Sys2Proof/Machine/Protocol.lean ====
section
/-! DEFINITION. The host's side (spec/70_reset_and_hazards.md R84, R90; spec/30_encoding.md R46, R47): the actions of a
program, and the edges at which a host that follows the handshake performs them. -/

namespace Sys2Proof.Machine

/-- An action of a host program (R46): a command, or `RESET`, the reset input for one edge (R47, R78). -/
inductive HostAction where
  | command (i : Instr)
  | reset
  deriving DecidableEq, Repr

/-- The edge at which the host presents `i` (R19). DESIGN CHOICE (log entry 11): `cmd_data` has W bits, so of a number
that needs more (none that the text form or the decoder gives) it carries the low W bits, while `exec` refuses such a
number; the spec says nothing of one. -/
def Edge.present (W : Nat) (i : Instr) : Edge W :=
  { (Edge.quiet : Edge W) with cmdValid := true, cmdOp := i.op, cmdData := zextW W i.data }

/-- The edge at which the host takes a response (R19). -/
def Edge.take {W : Nat} : Edge W := { (Edge.quiet : Edge W) with rspReady := true }

/-- The edge at which the host holds `rst` high (R78). -/
def Edge.reset {W : Nat} : Edge W := { (Edge.quiet : Edge W) with rst := true }

/-- An edge at which a command in `BUSY` needs another cycle (R21, R89). -/
def Edge.stalled {W : Nat} : Edge W := { (Edge.quiet : Edge W) with stall := true }

/-- One command as it crosses the ports, with every wait the spec leaves open: how many edges the host waits before
presenting it, how many extra cycles the engine takes (R89), how many edges the host waits before taking the response
(R84). -/
structure Exchange where
  instr : Instr
  idles : Nat
  stalls : Nat
  waits : Nat
  deriving DecidableEq, Repr

/-- The edges of one exchange, in order (R21, R84). -/
def Exchange.edges (W : Nat) (x : Exchange) : List (Edge W) :=
  List.replicate x.idles Edge.quiet ++ Edge.present W x.instr ::
    (List.replicate x.stalls Edge.stalled ++ Edge.quiet ::
      (List.replicate x.waits Edge.quiet ++ [Edge.take]))

/-- The edges of one action, performed without waiting. -/
def HostAction.edges (W : Nat) : HostAction → List (Edge W)
  | .command i => Exchange.edges W { instr := i, idles := 0, stalls := 0, waits := 0 }
  | .reset => [Edge.reset]

/-- Give the host a program to run after what it already does (R90; log entry 8). -/
def State.load (s : State) (program : List HostAction) : State :=
  { s with edges := s.edges ++ program.flatMap (HostAction.edges s.cfg.W) }

/-- The observation of a run (R90): the delivered responses, in order, and `DIV`. -/
structure Observation (W : Nat) where
  responses : List (Response W)
  divisor : Word W
  deriving DecidableEq, Repr

/-- What a state shows of the run that led to it (R90). -/
def State.observe (s : State) : Observation s.cfg.W where
  responses := s.delivered
  divisor := s.eng.div

/-- Has the run ended? Every accepted command has had its response delivered and the engine is in `IDLE` (R90); `IDLE`
says both, since one command at most is in flight (R21). DESIGN CHOICE (log entry 7): R90 does not say how the end is
told from an `IDLE` moment between two commands, and here the host's list of edges must be used up as well, so that a
run with quiet edges still in the list has not ended. -/
def State.ended (s : State) : Bool := s.edges.isEmpty && decide (s.eng.ifState = .idle)

end Sys2Proof.Machine
end

