-- ==== Sys2Proof/Machine/Text.lean ====
section
/-! DEFINITION. The text form of commands and programs (spec/30_encoding.md R46): a mnemonic and one integer literal,
`RESET`, comments from `;` to the end of the line, and the response stated after `->`. What R46 leaves open (blanks,
letter case, empty lines) is log entry 15. -/

namespace Sys2Proof.Machine

/-- Why a line is no line of the text form. -/
inductive TextError where
  /-- the first word is none of R46's -/
  | unknownMnemonic
  /-- the words do not have one of R46's forms -/
  | badForm
  /-- not an integer literal in decimal, `0x` hexadecimal or `0b` binary -/
  | badLiteral
  /-- a literal above `2^W - 1`: rejected, never truncated -/
  | outOfRange
  deriving DecidableEq, Repr

/-- One line: what the host does, and the response `(data, flag, err)` the line states, if it states one. -/
structure TextLine where
  action : HostAction
  response : Option (Nat × Nat × Nat)
  deriving DecidableEq, Repr

/-- A digit's value in the given base. -/
def digitValue (base : Nat) (c : Char) : Option Nat :=
  let n := c.toNat
  let v : Option Nat :=
    if 48 ≤ n ∧ n ≤ 57 then some (n - 48)
    else if 65 ≤ n ∧ n ≤ 70 then some (n - 55)
    else if 97 ≤ n ∧ n ≤ 102 then some (n - 87)
    else none
  v.filter (· < base)

/-- Digits read most significant first (R7), after a number already read. -/
def digitsValue (base : Nat) : Nat → List Char → Option Nat
  | acc, [] => some acc
  | acc, c :: cs =>
    match digitValue base c with
    | some d => digitsValue base (acc * base + d) cs
    | none => none

/-- An integer literal: decimal, `0x` hexadecimal or `0b` binary (R46). -/
def literalValue : List Char → Option Nat
  | '0' :: 'x' :: c :: cs => digitsValue 16 0 (c :: cs)
  | '0' :: 'b' :: c :: cs => digitsValue 2 0 (c :: cs)
  | c :: cs => digitsValue 10 0 (c :: cs)
  | [] => none

/-- Is this a blank between words? -/
def isBlank (c : Char) : Bool := c == ' ' || c == '\t'

/-- The line without its comment (R46). -/
def dropComment (line : List Char) : List Char := line.takeWhile (· != ';')

/-- Cut a line at blanks, the word read so far given in reverse. -/
def wordsFrom : List Char → List Char → List (List Char)
  | acc, [] => if acc.isEmpty then [] else [acc.reverse]
  | acc, c :: cs =>
    if isBlank c then
      if acc.isEmpty then wordsFrom [] cs else acc.reverse :: wordsFrom [] cs
    else wordsFrom (c :: acc) cs

/-- Cut a line at `->`: what stands before it, and what stands after it if it is there. -/
def cutArrow : List Char → List Char × Option (List Char)
  | [] => ([], none)
  | '-' :: '>' :: cs => ([], some cs)
  | c :: cs => (c :: (cutArrow cs).1, (cutArrow cs).2)

/-- Cut at commas, the piece read so far given in reverse. -/
def piecesFrom : List Char → List Char → List (List Char)
  | acc, [] => [acc.reverse]
  | acc, c :: cs => if c == ',' then acc.reverse :: piecesFrom [] cs else piecesFrom (c :: acc) cs

/-- A literal in the range `0 .. 2^bits - 1` (R46). -/
def rangedLiteral (bits : Nat) (cs : List Char) : Except TextError Nat :=
  match literalValue cs with
  | some n => if n < 2 ^ bits then .ok n else .error .outOfRange
  | none => .error .badLiteral

/-- A stated response, `(data, flag, err)` (R45, R46). DESIGN CHOICE (log entry 15): R46 says nothing of blanks in it,
and here every blank is dropped, one within a literal too, so that `(0x 1 2, 0, 0)` reads as `(0x12, 0, 0)`. -/
def statedResponse (W : Nat) (cs : List Char) : Except TextError (Nat × Nat × Nat) :=
  match cs.filter (fun c => !isBlank c) with
  | '(' :: rest =>
    match rest.reverse with
    | ')' :: inner =>
      match piecesFrom [] inner.reverse with
      | [data, flag, err] =>
        match rangedLiteral W data, rangedLiteral 1 flag, rangedLiteral 1 err with
        | .ok d, .ok f, .ok e => .ok (d, f, e)
        | .error r, _, _ => .error r
        | _, .error r, _ => .error r
        | _, _, .error r => .error r
      | _ => .error .badForm
    | _ => .error .badForm
  | _ => .error .badForm

/-- The command a mnemonic stands for (R42, R46). -/
def mnemonicInstr (m : List Char) : Option (Nat → Instr) :=
  if m = ['E', 'N', 'C', 'O', 'D', 'E'] then some Instr.encode
  else if m = ['V', 'E', 'R', 'I', 'F', 'Y'] then some Instr.verify
  else if m = ['S', 'E', 'T', 'D', 'I', 'V'] then some Instr.setdiv
  else if m = ['R', 'S', 'V', 'D'] then some Instr.rsvd
  else none

/-- The action the words of a line stand for (R46): a mnemonic with one literal, or `RESET` alone. -/
def wordsAction (W : Nat) : List (List Char) → Except TextError HostAction
  | [m] => if m = ['R', 'E', 'S', 'E', 'T'] then .ok .reset else .error .badForm
  | [m, lit] =>
    match mnemonicInstr m with
    | none => .error .unknownMnemonic
    | some mk =>
      match rangedLiteral W lit with
      | .ok n => .ok (.command (mk n))
      | .error r => .error r
  | _ => .error .badForm

/-- Read one line of the text form at width W (R46); none for a line with nothing but blanks and a comment.
DESIGN CHOICE (log entry 15): R46 gives the stated response after a command, and `RESET` is none (R47); a response
stated after `RESET` is read and recorded all the same, though no such response exists. -/
def parseLine (W : Nat) (line : List Char) : Except TextError (Option TextLine) :=
  let code := dropComment line
  if (wordsFrom [] code).isEmpty then .ok none
  else
    match wordsAction W (wordsFrom [] (cutArrow code).1) with
    | .error r => .error r
    | .ok action =>
      match (cutArrow code).2 with
      | none => .ok (some { action := action, response := none })
      | some stated =>
        match statedResponse W stated with
        | .ok r => .ok (some { action := action, response := some r })
        | .error r => .error r

/-- Read a program, one line after another (R46). -/
def parseProgram (W : Nat) : List (List Char) → Except TextError (List TextLine)
  | [] => .ok []
  | line :: lines =>
    match parseLine W line, parseProgram W lines with
    | .error r, _ => .error r
    | .ok _, .error r => .error r
    | .ok none, .ok rest => .ok rest
    | .ok (some l), .ok rest => .ok (l :: rest)

end Sys2Proof.Machine
end

