-- ==== Sys2Proof/Safety.lean ====
section
/-! DEFINITION. The terms claims are stated in: the commands read one after another (spec/20_memory.md R32), the
invariant of the engine, and what counts as a safe run. -/

namespace Sys2Proof.Machine

/-! The sequential reading (R32): "the observable behaviour of a command sequence equals applying the commands' rules
one after another, in acceptance order, to `DIV`". -/

/-- The response the rule of a command gives under divisor `d` (10_state.md R20; 40_divider.md R54, R56, R58, R60). -/
def ruleResponse {W : Nat} (d : Word W) : Instr → Response W
  | .encode value => { data := codeword (zextW W value) d, flag := false, err := false }
  | .verify value => { data := 0, flag := decide (reduce (zextW W value) d = 0), err := false }
  | .setdiv _ => { data := 0, flag := false, err := false }
  | .rsvd _ => { data := 0, flag := false, err := true }

/-- The divisor the rule of a command leaves (R54, R56, R58, R60). -/
def ruleDivisor {W : Nat} (d : Word W) : Instr → Word W
  | .encode _ => d
  | .verify _ => d
  | .setdiv newDivisor => if zextW W newDivisor = 0 then d else zextW W newDivisor
  | .rsvd _ => d

/-- The responses of a command sequence under divisor `d`, one for each command, in order (R32). -/
def sequentialResponses {W : Nat} (d : Word W) : List Instr → List (Response W)
  | [] => []
  | i :: is => ruleResponse d i :: sequentialResponses (ruleDivisor d i) is

/-- The divisor a command sequence leaves (R32). -/
def sequentialDivisor {W : Nat} (d : Word W) : List Instr → Word W
  | [] => d
  | i :: is => sequentialDivisor (ruleDivisor d i) is

/-- Does configuration `c` run the command to its response? Every command of the source, and the reserved opcode where
it is answered; elsewhere that one is the fault `IllegalCommand` (60_exceptions.md R68; log entry 5). -/
def completes (c : Config) : Instr → Bool
  | .encode _ => true
  | .verify _ => true
  | .setdiv _ => true
  | .rsvd _ => decide (c.onIllegal = .answer)

/-! The invariant. -/

/-- A response some command may have (R20's table): an error answer carries nothing else, and only a response without
data carries the flag. -/
def Response.legal {W : Nat} (r : Response W) : Bool :=
  (!r.err || (decide (r.data = 0) && !r.flag)) && (!r.flag || decide (r.data = 0))

/-- What holds of an engine at every edge. Before the first reset nothing is said of its registers (R26). -/
structure Inv (s : State) : Prop where
  /-- R5: the word is at least 8 bits wide -/
  width : 8 ≤ s.cfg.W
  /-- R17: `DIV != 0` at every point after the first reset -/
  divisor : s.live = true → s.eng.div ≠ 0
  /-- R34: `DIV_S` equals `DIV` for the whole life of a command -/
  snapshot : s.live = true → s.eng.ifState = .busy → s.eng.divS = s.eng.div
  /-- R20, R21: a presented response is the one the latched command's rule gives under the snapshot, which is not 0 -/
  answered : s.live = true → s.eng.ifState = .resp →
    s.eng.divS ≠ 0 ∧ s.eng.response = ruleResponse s.eng.divS (decode s.eng.latched)
  /-- R20: every delivered response is one some command may have -/
  log : ∀ r ∈ s.delivered, r.legal = true

/-! Safe runs. -/

/-- A run of `n` edges from `s` is safe when it ends in a state (no fault, no refusal) and the host has received no
error response: the two ways a run shows `IllegalCommand` (60_exceptions.md R68). -/
def SafeRun (n : Nat) (s : State) : Prop :=
  ∃ t : State, Host.Core.run Sys2Proof.core n s = .next t ∧ ∀ r ∈ t.delivered, r.err = false

end Sys2Proof.Machine
end

