-- ==== Sys2Proof/Certificates/Slice0/Obligations.lean ====
section
/-! DEFINITION. The statements about the model. `W` is the word width, `s.cfg.W` in a statement about a machine: every
statement holds for every width it names (spec/00_scope.md R5). A statement marked "derived" rests on what the spec
itself derives, or on a choice of the model's that its docstring names. -/

open Sys2Proof Sys2Proof.Machine

/-! ## Encoding (30_encoding.md) -/

/-- The words of 30_encoding.md R40 and of the programs of 95_test_vectors.md Part 3 decode to the commands they are
written for. -/
def Obligations.SampleCommandWordsDecode : Prop :=
  decode (W := 64) 0x14#66 = .encode 5 ∧
  decode (W := 64) 0xBB1#66 = .verify 0x2EC ∧
  decode (W := 64) 0xE#66 = .setdiv 3 ∧
  decode (W := 64) 0x1F#66 = .rsvd 7 ∧
  decode (W := 64) 0x20000000000000006#66 = .setdiv 0x8000000000000001 ∧
  decode (W := 8) 0x3FE#10 = .setdiv 0xFF

/-- R40: the command word is `data * 4 + op`; its fields are `cmd[1:0]` and `cmd[W+1:2]`. -/
def Obligations.CommandWordIsDataTimesFourPlusOp : Prop :=
  ∀ (W : Nat) (data : Word W) (op : BitVec 2),
    (commandWord data op).toNat = data.toNat * 4 + op.toNat ∧
    opField (commandWord data op) = op ∧
    dataField (commandWord data op) = data

/-- R42: the two low bits alone select the command, and the data field is its operand. -/
def Obligations.LowTwoBitsSelectTheCommand : Prop :=
  ∀ (W : Nat) (cmd : BitVec (W + 2)),
    (cmd.toNat % 4 = 0 → decode cmd = .encode (cmd.toNat / 4)) ∧
    (cmd.toNat % 4 = 1 → decode cmd = .verify (cmd.toNat / 4)) ∧
    (cmd.toNat % 4 = 2 → decode cmd = .setdiv (cmd.toNat / 4)) ∧
    (cmd.toNat % 4 = 3 → decode cmd = .rsvd (cmd.toNat / 4))

/-- Derived (R40 to R43): at every width, decoding the word of a well-formed command gives the command back, and every
command word is the word of the well-formed command it decodes to. -/
def Obligations.DecodeAndEncodeAreInverse : Prop :=
  (∀ (W : Nat) (i : Instr), i.wellFormed W = true → decode (encode W i) = i) ∧
  (∀ (W : Nat) (cmd : BitVec (W + 2)), (decode cmd).wellFormed W = true ∧ encode W (decode cmd) = cmd)

/-- R45: the fields of the response word. -/
def Obligations.ResponseWordFields : Prop :=
  ∀ (W : Nat) (r : Response W),
    r.word.extractLsb' 0 W = r.data ∧ r.word.getLsbD W = r.flag ∧ r.word.getLsbD (W + 1) = r.err

/-- Derived (R46): a mnemonic with a literal in range is that command; a literal out of range is rejected, never
truncated. -/
def Obligations.TextFormRejectsLiteralsOutOfRange : Prop :=
  ∀ (W n : Nat) (m lit : List Char) (mk : Nat → Instr), mnemonicInstr m = some mk → literalValue lit = some n →
    (n < 2 ^ W → wordsAction W [m, lit] = .ok (.command (mk n))) ∧
    (2 ^ W ≤ n → wordsAction W [m, lit] = .error .outOfRange)

/-! ## The datapath (40_divider.md section 1) -/

/-- R48, R49: `NUMBITS` is 0 for 0, else the index of the highest set bit plus one, which is `floor(log2(v)) + 1`; it
is in `0 .. W`, and exact at every power of two and just below it. -/
def Obligations.NumBitsIsTheBitLength : Prop :=
  (∀ (W : Nat) (v : Word W),
    numBits v ≤ W ∧
    (v = 0 → numBits v = 0) ∧
    (v ≠ 0 → numBits v = Nat.log2 v.toNat + 1 ∧
      v.getLsbD (numBits v - 1) = true ∧ ∀ i, numBits v ≤ i → v.getLsbD i = false)) ∧
  (∀ W k : Nat, k < W → numBits (BitVec.ofNat W (2 ^ k)) = k + 1) ∧
  (∀ W k : Nat, k ≤ W → numBits (BitVec.ofNat W (2 ^ k - 1)) = k) ∧
  (∀ W : Nat, 4 ≤ W → numBits (BitVec.ofNat W 0) = 0 ∧ numBits (BitVec.ofNat W 1) = 1 ∧
    numBits (BitVec.ofNat W 7) = 3 ∧ numBits (BitVec.ofNat W 8) = 4)

/-- R50: `REDUCE(x, d)` for `d != 0` is the loop: while `NUMBITS(crc) >= NUMBITS(d)`, XOR the divisor shifted by the
difference if its bit length is that of `crc`, and go on; else return `crc`. What it returns is shorter than `d`, and
`x` itself comes back when it already is. -/
def Obligations.ReduceIsTheAlignAndXorLoop : Prop :=
  ∀ (W : Nat) (x d : Word W), d ≠ 0 →
    reduce x d =
      (if numBits d ≤ numBits x then
        reduce (if numBits (d <<< (numBits x - numBits d)) = numBits x
          then x ^^^ (d <<< (numBits x - numBits d)) else x) d
      else x) ∧
    numBits (reduce x d) < numBits d

/-- Derived (R51): inside the loop the shift amount is below W, the shifted divisor loses no bit and has the bit length
of `crc`, and the XOR is strictly shorter. -/
def Obligations.ReductionPassClearsTheTopBit : Prop :=
  ∀ (W : Nat) (crc d : Word W), d ≠ 0 → numBits d ≤ numBits crc →
    numBits crc - numBits d < W ∧
    (d <<< (numBits crc - numBits d)).toNat = d.toNat * 2 ^ (numBits crc - numBits d) ∧
    numBits (d <<< (numBits crc - numBits d)) = numBits crc ∧
    reducePass d crc = crc ^^^ (d <<< (numBits crc - numBits d)) ∧
    numBits (reducePass d crc) < numBits crc

/-- Derived (R51): the loop makes at most `max(0, NUMBITS(x) - db + 1)` passes, never more than `W - db + 1`, and the
remainder is those passes' result, below `2^(db-1)`. -/
def Obligations.ReductionPassesAreBounded : Prop :=
  ∀ (W : Nat) (x d : Word W), d ≠ 0 →
    reduce x d = (reducePass d)^[reducePasses x d] x ∧
    reducePasses x d ≤ numBits x + 1 - numBits d ∧
    reducePasses x d ≤ W - numBits d + 1 ∧
    (reduce x d).toNat < 2 ^ (numBits d - 1)

/-- Derived (R52): `REDUCE` computes the remainder of polynomials over GF(2). -/
def Obligations.ReduceIsThePolynomialRemainder : Prop :=
  ∀ (W : Nat) (x d : Word W), d ≠ 0 → poly (reduce x d) = poly x %ₘ poly d

/-- Derived (R52): the remainder is linear over XOR, is the word itself when that is shorter than the divisor, and is 0
under the divisor 1. -/
def Obligations.ReduceIsLinearOverXor : Prop :=
  (∀ (W : Nat) (a b d : Word W), d ≠ 0 → reduce (a ^^^ b) d = reduce a d ^^^ reduce b d) ∧
  (∀ (W : Nat) (x d : Word W), numBits x < numBits d → reduce x d = x) ∧
  (∀ (W : Nat) (x : Word W), reduce x (1 : Word W) = 0)

/-- R53: widening is `(value * 2^(db-1)) mod 2^W`; only the low `W - db + 1` bits of `value` matter; it is lossless
exactly when `NUMBITS(value) + db - 1 <= W`; and no response bit of ENCODE tells. -/
def Obligations.WideningTruncatesToTheWord : Prop :=
  (∀ (W : Nat) (v d : Word W), d ≠ 0 →
    (widen v d).toNat = v.toNat * 2 ^ (numBits d - 1) % 2 ^ W ∧
    widen v d = widen (BitVec.ofNat W (v.toNat % 2 ^ (W - numBits d + 1))) d ∧
    ((widen v d).toNat = v.toNat * 2 ^ (numBits d - 1) ↔ numBits v + numBits d - 1 ≤ W)) ∧
  (∀ (s t : State) (value : Nat), exec (.encode value) s = .next t →
    t.eng.rspFlag = false ∧ t.eng.rspErr = false)

/-! ## The commands (40_divider.md section 2) -/

/-- Derived (R54): ENCODE answers the widened value XORed with its remainder, and writes no other state but the working
registers; with R54's encoding, corner cases and example. What `CRC`, `NB`, `OP_R`, `DATA_R` and `DIV_S` hold in the
next state, which is in `RESP`, is the model's choice (log entry 12). -/
def Obligations.EncodeAnswersTheCodeword : Prop :=
  (∀ (s : State) (v : Word s.cfg.W), s.eng.divS ≠ 0 →
    exec (.encode v.toNat) s = .next { s with
      eng := { s.eng with
        rspData := (v <<< (numBits s.eng.divS - 1)) ^^^ reduce (v <<< (numBits s.eng.divS - 1)) s.eng.divS
        rspFlag := false
        rspErr := false
        ifState := .resp
        crc := reduce (v <<< (numBits s.eng.divS - 1)) s.eng.divS
        nb := numBitsReg (reduce (v <<< (numBits s.eng.divS - 1)) s.eng.divS) } }) ∧
  (∀ (W : Nat) (v : Word W), encode W (.encode v.toNat) = commandWord v 0b00#2) ∧
  (∀ (W : Nat) (v d : Word W), d ≠ 0 →
    codeword (0 : Word W) d = 0 ∧
    (d = 1 → codeword v d = v) ∧
    (numBits d = W → widen v d = if v.getLsbD 0 then 1#W <<< (W - 1) else 0) ∧
    reduce (codeword v d) d = 0) ∧
  codeword 5#64 0xBB#64 = 0x2EC#64

/-- Derived (R56): VERIFY answers whether the remainder of the operand itself is 0, and writes no other state but the
working registers; with R56's encoding, corner cases and example. What `CRC`, `NB`, `OP_R`, `DATA_R` and `DIV_S` hold
in the next state, which is in `RESP`, is the model's choice (log entry 12). -/
def Obligations.VerifyAnswersWhetherTheRemainderIsZero : Prop :=
  (∀ (s : State) (v : Word s.cfg.W), s.eng.divS ≠ 0 →
    exec (.verify v.toNat) s = .next { s with
      eng := { s.eng with
        rspData := 0
        rspFlag := decide (reduce v s.eng.divS = 0)
        rspErr := false
        ifState := .resp
        crc := reduce v s.eng.divS
        nb := numBitsReg (reduce v s.eng.divS) } }) ∧
  (∀ (W : Nat) (v : Word W), encode W (.verify v.toNat) = commandWord v 0b01#2) ∧
  (∀ (W : Nat) (v d : Word W), d ≠ 0 →
    reduce (0 : Word W) d = 0 ∧
    (v ≠ 0 → v.toNat < 2 ^ (numBits d - 1) → reduce v d ≠ 0) ∧
    reduce d d = 0 ∧
    (d = 1 → reduce v d = 0)) ∧
  reduce 0x2EC#64 0xBB#64 = 0 ∧ reduce 0x2ED#64 0xBB#64 ≠ 0

/-- Derived (R58): SETDIV writes `DIV` unless the operand is 0, and answers `(0, 0, 0)` in either case. That `CRC`, `NB`,
`OP_R`, `DATA_R` and `DIV_S` are as they were in the next state, which is in `RESP`, is the model's choice (log
entry 12). -/
def Obligations.SetdivReplacesTheDivisorUnlessZero : Prop :=
  (∀ (s : State) (v : Word s.cfg.W),
    exec (.setdiv v.toNat) s = .next { s with
      eng := { s.eng with
        div := if v = 0 then s.eng.div else v
        rspData := 0
        rspFlag := false
        rspErr := false
        ifState := .resp } }) ∧
  (∀ (W : Nat) (v : Word W), encode W (.setdiv v.toNat) = commandWord v 0b10#2)

/-- Derived (R60): RSVD answers `(0, 0, 1)`, changes nothing else, and ignores its operand, in a configuration in which
the engine answers the reserved opcode (the model's choice, log entry 5). That `CRC`, `NB`, `OP_R`, `DATA_R` and `DIV_S`
are as they were in `RESP` is the model's choice (log entry 12). -/
def Obligations.RsvdAnswersTheErrorBit : Prop :=
  (∀ (s : State) (data : Nat), s.cfg.onIllegal = .answer →
    exec (.rsvd data) s = .next { s with
      eng := { s.eng with
        rspData := 0
        rspFlag := false
        rspErr := true
        ifState := .resp } }) ∧
  (∀ (W : Nat) (v : Word W), encode W (.rsvd v.toNat) = commandWord v 0b11#2)

/-- Derived (R68, 93_implementation_defined.md U8; that there is a configuration is the model's choice, log entry 5):
where a run is to stop at the reserved opcode, as in the reference configuration, it stops with the fault
`IllegalCommand`, whatever the state and the operand. -/
def Obligations.RsvdStopsARunWhereAsked : Prop :=
  ∀ (s : State) (data : Nat), s.cfg.onIllegal = .stop → exec (.rsvd data) s = .fault .illegalCommand

/-- Derived (R50, U3; log entry 10): a reduction by the divisor 0, which no run reaches, is a fault, never a value. -/
def Obligations.ReductionByZeroStops : Prop :=
  ∀ (s : State) (v : Word s.cfg.W), s.eng.divS = 0 →
    exec (.encode v.toNat) s = .fault .zeroDivisor ∧ exec (.verify v.toNat) s = .fault .zeroDivisor

/-- Derived (R46; log entry 11): a number of more than W bits is no operand; ENCODE, VERIFY and SETDIV refuse it by
name. The reserved opcode ignores its operand (R60). -/
def Obligations.OperandsTooWideAreRefused : Prop :=
  ∀ (s : State) (n : Nat), 2 ^ s.cfg.W ≤ n →
    exec (.encode n) s = .refused .operandTooWide ∧
    exec (.verify n) s = .refused .operandTooWide ∧
    exec (.setdiv n) s = .refused .operandTooWide

/-- Derived (R39): the response of a command and its effect on `DIV` are fixed by its rule, given the divisor and the
operand. Every command completes, the reserved opcode where it is answered (the model's choice, log entry 5). -/
def Obligations.EveryCommandCompletesByItsRule : Prop :=
  ∀ (s : State) (i : Instr), i.wellFormed s.cfg.W = true → s.eng.divS ≠ 0 → completes s.cfg i = true →
    ∃ e : Engine s.cfg.W, exec i s = .next { s with eng := e } ∧ e.ifState = .resp ∧
      e.response = ruleResponse s.eng.divS i ∧ e.div = ruleDivisor s.eng.div i

/-- Derived (R16, R54): ENCODE 1 answers the divisor itself. -/
def Obligations.EncodeOneReadsBackTheDivisor : Prop :=
  ∀ (s : State), s.eng.divS ≠ 0 →
    ∃ e : Engine s.cfg.W, exec (.encode 1) s = .next { s with eng := e } ∧
      e.response = { data := s.eng.divS, flag := false, err := false }

/-- Derived (R55): the codeword is the widened value with its low `db - 1` bits replaced by the remainder, and its own
remainder is 0. -/
def Obligations.CodewordHasTheRemainderInItsLowBits : Prop :=
  ∀ (W : Nat) (v d : Word W), d ≠ 0 →
    (∀ i, i < numBits d - 1 → (codeword v d).getLsbD i = (reduce (widen v d) d).getLsbD i) ∧
    (∀ i, numBits d - 1 ≤ i → (codeword v d).getLsbD i = (widen v d).getLsbD i) ∧
    reduce (codeword v d) d = 0

/-- Derived (R57): VERIFY accepts exactly the words whose polynomial is a multiple of the divisor's. They are closed
under XOR and contain 0, the divisor and its shifts that do not overflow. -/
def Obligations.VerifyAcceptsExactlyTheMultiples : Prop :=
  (∀ (s t : State) (v : Word s.cfg.W), exec (.verify v.toNat) s = .next t →
    (t.eng.rspFlag = true ↔ poly s.eng.divS ∣ poly v)) ∧
  (∀ (W : Nat) (a b d : Word W), d ≠ 0 →
    (reduce a d = 0 → reduce b d = 0 → reduce (a ^^^ b) d = 0) ∧
    reduce (0 : Word W) d = 0 ∧
    (∀ k, numBits d + k ≤ W → reduce (d <<< k) d = 0))

/-- Derived (R59): under the divisor 1 ENCODE answers its operand and VERIFY answers flag 1, for every operand. -/
def Obligations.DivisorOneAcceptsEverything : Prop :=
  ∀ (s : State) (v : Word s.cfg.W), 1 ≤ s.cfg.W → s.eng.divS = 1 →
    (∃ e : Engine s.cfg.W, exec (.encode v.toNat) s = .next { s with eng := e } ∧
      e.response = { data := v, flag := false, err := false }) ∧
    (∃ e : Engine s.cfg.W, exec (.verify v.toNat) s = .next { s with eng := e } ∧
      e.response = { data := 0, flag := true, err := false })

/-! ## The source's properties (40_divider.md section 3) -/

/-- Derived (R61): ENCODE of any value, then VERIFY of its codeword under the same divisor, gives flag 1, an
overflowing widening included. -/
def Obligations.EncodeThenVerifySucceeds : Prop :=
  ∀ (s : State) (v : Word s.cfg.W), s.eng.divS ≠ 0 →
    ∃ e : Engine s.cfg.W, exec (.encode v.toNat) s = .next { s with eng := e } ∧
      ∀ (s' : State), s'.cfg = s.cfg → s'.eng.divS.toNat = s.eng.divS.toNat →
        ∃ e' : Engine s'.cfg.W, exec (.verify e.rspData.toNat) s' = .next { s' with eng := e' } ∧
          e'.rspFlag = true ∧ e'.rspErr = false ∧ e'.rspData = 0

/-- Derived (R62): VERIFY of a codeword with an error `x` XORed in gives flag 1 exactly when the divisor's polynomial
divides the error's; an error below `2^(db-1)` other than 0 is always detected. -/
def Obligations.ErrorsAreDetectedUnlessMultiples : Prop :=
  ∀ (s : State) (v x : Word s.cfg.W), s.eng.divS ≠ 0 →
    ∃ e e' : Engine s.cfg.W,
      exec (.encode v.toNat) s = .next { s with eng := e } ∧
      exec (.verify (e.rspData ^^^ x).toNat) s = .next { s with eng := e' } ∧
      (e'.rspFlag = true ↔ poly s.eng.divS ∣ poly x) ∧
      (x ≠ 0 → x.toNat < 2 ^ (numBits s.eng.divS - 1) → e'.rspFlag = false)

/-- Derived (R63): the codeword of 42 with its low bit flipped fails VERIFY under every divisor of two bits or more,
and passes under the divisor 1. -/
def Obligations.FlippedLowBitIsDetected : Prop :=
  ∀ (s : State), 8 ≤ s.cfg.W → s.eng.divS ≠ 0 →
    ∃ e e' : Engine s.cfg.W,
      exec (.encode 42) s = .next { s with eng := e } ∧
      exec (.verify (e.rspData ^^^ 1).toNat) s = .next { s with eng := e' } ∧
      (e'.rspFlag = true ↔ numBits s.eng.divS = 1)

/-! ## Frames -/

/-- Derived (R16, R54, R56): ENCODE and VERIFY leave `DIV` and the latched registers `OP_R`, `DATA_R`, `DIV_S`
unchanged, and everything outside the engine: the configuration, the coming edges, what the host has received, the
model's own fields. They may write `RSP_*`, `IF_STATE`, `CRC` and `NB`, no other register. That `OP_R`, `DATA_R` and
`DIV_S` keep their values in `RESP` is the model's choice (log entry 12). -/
def Obligations.DividingCommandsFrame : Prop :=
  ∀ (s t : State) (n : Nat), (exec (.encode n) s = .next t ∨ exec (.verify n) s = .next t) →
    ∃ e : Engine s.cfg.W, t = { s with eng := e } ∧ e.ifState = .resp ∧
      e.div = s.eng.div ∧ e.opR = s.eng.opR ∧ e.dataR = s.eng.dataR ∧ e.divS = s.eng.divS

/-- Derived (R16, R58, R60): SETDIV may write `DIV`, RSVD does not; both leave `OP_R`, `DATA_R`, `DIV_S`, `CRC`, `NB`
unchanged, and everything outside the engine. They write `RSP_*` and `IF_STATE`. That `OP_R`, `DATA_R`, `DIV_S`, `CRC`
and `NB` keep their values in `RESP` is the model's choice (log entry 12). -/
def Obligations.ControlCommandsFrame : Prop :=
  (∀ (s t : State) (n : Nat), exec (.setdiv n) s = .next t →
    ∃ e : Engine s.cfg.W, t = { s with eng := e } ∧ e.ifState = .resp ∧
      e.opR = s.eng.opR ∧ e.dataR = s.eng.dataR ∧ e.divS = s.eng.divS ∧ e.crc = s.eng.crc ∧ e.nb = s.eng.nb) ∧
  (∀ (s t : State) (n : Nat), exec (.rsvd n) s = .next t →
    ∃ e : Engine s.cfg.W, t = { s with eng := e } ∧ e.ifState = .resp ∧ e.div = s.eng.div ∧
      e.opR = s.eng.opR ∧ e.dataR = s.eng.dataR ∧ e.divS = s.eng.divS ∧ e.crc = s.eng.crc ∧ e.nb = s.eng.nb)

/-! ## The edges (10_state.md section 3; 70_reset_and_hazards.md) -/

/-- Derived (R21, R22; the step around `exec` is the model's, log entries 6 and 8): at an edge without reset at which
the command in `BUSY` has been computed, the step runs the command that the latched word decodes to, the edge being
past. -/
def Obligations.StepRunsTheLatchedCommand : Prop :=
  ∀ (s : State), s.live = true → s.eng.ifState = .busy → s.edge.rst = false → s.edge.stall = false →
    step s = exec (decode (commandWord s.eng.dataR s.eng.opR)) { s with edges := s.edges.tail }

/-- Derived (the model's own, log entries 8 and 12): the command placed by `withFetchWord` is the one the next step runs,
on registers as accepting it leaves them. Of a number of more than W + 2 bits, which is no command word, the low W + 2
bits are placed (log entry 8). -/
def Obligations.PlacedWordRunsAtTheNextStep : Prop :=
  ∀ (s : State) (nbits w : Nat),
    step (s.withFetchWord nbits w) =
      exec (decode (BitVec.ofNat (s.cfg.W + 2) (w % 2 ^ nbits)))
        { s with
          eng := { s.eng with
            opR := opField (BitVec.ofNat (s.cfg.W + 2) (w % 2 ^ nbits))
            dataR := dataField (BitVec.ofNat (s.cfg.W + 2) (w % 2 ^ nbits))
            divS := s.eng.div
            ifState := .busy }
          live := true }

/-- Derived (R19, R21, R34): a command presented in `IDLE` without reset is accepted at that edge: its opcode and
operand are latched, `DIV` is copied into `DIV_S`, and `IDLE` goes to `BUSY`; `DIV`, `CRC`, `NB` and what the host has
received do not change. That the accepting edge leaves `CRC` and `NB` as they were is the model's choice (log
entry 12). -/
def Obligations.IdleAcceptsThePresentedCommand : Prop :=
  ∀ (s : State), s.live = true → s.eng.ifState = .idle → s.edge.rst = false → s.edge.cmdValid = true →
    ∃ (e : Engine s.cfg.W) (k : Nat),
      step s = .next { s with eng := e, edges := s.edges.tail, draws := k } ∧
      e.ifState = .busy ∧ e.opR = s.edge.cmdOp ∧ e.dataR = s.edge.cmdData ∧ e.divS = s.eng.div ∧
      e.div = s.eng.div ∧ e.crc = s.eng.crc ∧ e.nb = s.eng.nb

/-- Derived (R21, R77, R84): an edge without reset at which nothing is presented in `IDLE`, or at which the command in
`BUSY` needs another cycle, changes no register but the response registers, which have no value while
`rsp_valid = 0` (R20, R87). That `OP_R`, `DATA_R`, `DIV_S`, `CRC` and `NB` keep their values in `IDLE` is the model's
choice (log entry 12), and so is that `CRC` and `NB` keep theirs at a further `BUSY` cycle, where R50's loop may run
(log entries 6 and 12). -/
def Obligations.WaitingEdgesChangeNoRegister : Prop :=
  ∀ (s : State), s.live = true → s.edge.rst = false →
    (s.eng.ifState = .idle ∧ s.edge.cmdValid = false ∨ s.eng.ifState = .busy ∧ s.edge.stall = true) →
    ∃ (d : Word s.cfg.W) (f r : Bool) (k : Nat),
      step s = .next { s with
        eng := { s.eng with rspData := d, rspFlag := f, rspErr := r }
        edges := s.edges.tail
        draws := k }

/-- Derived (R20, R21, R84): in `RESP` the whole engine is held until the host takes the response; at that edge the
host receives it, `RESP` goes to `IDLE`, and no register but the response registers changes. That `OP_R`, `DATA_R`,
`DIV_S`, `CRC` and `NB` are held in `RESP` and kept at the delivery is the model's choice (log entry 12). -/
def Obligations.ResponseIsHeldUntilTaken : Prop :=
  (∀ (s : State), s.live = true → s.eng.ifState = .resp → s.edge.rst = false → s.edge.rspReady = false →
    step s = .next { s with edges := s.edges.tail }) ∧
  (∀ (s : State), s.live = true → s.eng.ifState = .resp → s.edge.rst = false → s.edge.rspReady = true →
    ∃ (d : Word s.cfg.W) (f r : Bool) (k : Nat),
      step s = .next { s with
        eng := { s.eng with ifState := .idle, rspData := d, rspFlag := f, rspErr := r }
        edges := s.edges.tail
        delivered := s.delivered ++ [{ data := s.eng.rspData, flag := s.eng.rspFlag, err := s.eng.rspErr }]
        draws := k })

/-- Derived (R19, R29, R84): inputs count only at the edge that samples them. Two edges with the same `rst` do the same
in `BUSY` if the command needs another cycle at both or at neither; in `RESP` if `rsp_ready` is the same; in `IDLE` if
`cmd_valid` is the same and, where it is 1, the command is the same. (Where the response registers have no value, both
outcomes hold the same draw of it, which is the model's own: log entry 4.) -/
def Obligations.InputsCountOnlyWhereSampled : Prop :=
  ∀ (s : State) (x y : Edge s.cfg.W) (rest : List (Edge s.cfg.W)), s.live = true → x.rst = y.rst →
    (s.eng.ifState = .busy ∧ x.stall = y.stall ∨
      s.eng.ifState = .resp ∧ x.rspReady = y.rspReady ∨
      s.eng.ifState = .idle ∧ x.cmdValid = y.cmdValid ∧
        (x.cmdValid = true → x.cmdOp = y.cmdOp ∧ x.cmdData = y.cmdData)) →
    step { s with edges := x :: rest } = step { s with edges := y :: rest }

/-- R79: at a resetting edge `DIV` becomes `0xBB` zero-extended and `IF_STATE` becomes `IDLE`, whatever the state and
the other inputs. -/
def Obligations.ResetInstallsTheDefaultDivisor : Prop :=
  ∀ (s : State), s.edge.rst = true →
    ∃ t : State, step s = .next t ∧ t.cfg = s.cfg ∧ t.live = true ∧
      t.eng.div.toNat = 0b10111011 % 2 ^ s.cfg.W ∧ t.eng.ifState = .idle ∧ t.eng.rspValid = false

/-- Derived (R80, R81): after a resetting edge nothing the host can see tells what the engine was doing before it: two
engines with any registers whatever have the same divisor, the same interface state and no response on their ports,
and no response was delivered. -/
def Obligations.ResetForgetsTheCommandInFlight : Prop :=
  ∀ (c : Config) (e e' : Engine c.W) (x : Edge c.W) (rest : List (Edge c.W)) (got : List (Response c.W))
    (l l' : Bool) (k k' : Nat), x.rst = true →
    ∃ (a a' : Engine c.W) (m m' : Nat),
      step { cfg := c, eng := e, edges := x :: rest, delivered := got, live := l, draws := k } =
        .next { cfg := c, eng := a, edges := rest, delivered := got, live := true, draws := m } ∧
      step { cfg := c, eng := e', edges := x :: rest, delivered := got, live := l', draws := k' } =
        .next { cfg := c, eng := a', edges := rest, delivered := got, live := true, draws := m' } ∧
      a.div = a'.div ∧ a.ifState = a'.ifState ∧ a.rspPorts = none ∧ a'.rspPorts = none

/-- Derived (R26, R82, U11; log entry 9): before the first reset after power-up a command has no outcome, which is a
fault; an edge with neither reset nor command leaves the engine waiting for its first reset. -/
def Obligations.CommandsBeforeTheFirstResetStop : Prop :=
  ∀ (s : State), s.live = false → s.edge.rst = false →
    (s.edge.cmdValid = true → step s = .fault .beforeFirstReset) ∧
    (s.edge.cmdValid = false → step s = .next { s with edges := s.edges.tail })

/-- R18 (and R6's constants): the reset value of `DIV` is `0b10111011` = 187, of bit length 8, at every width of 8 bits
or more, and `DIV` has it after every reset. -/
def Obligations.DefaultDivisorIsBB : Prop :=
  (∀ c : Config, 8 ≤ c.W →
    (State.resetAt c).eng.div.toNat = 187 ∧ numBits (State.resetAt c).eng.div = Config.defaultDivisorBits) ∧
  (∀ s t : State, 8 ≤ s.cfg.W → s.edge.rst = true → step s = .next t →
    t.eng.div.toNat = 187 ∧ numBits t.eng.div = Config.defaultDivisorBits)

/-- Derived (R10, R18): the default divisor is the polynomial x^7 + x^5 + x^4 + x^3 + x + 1. -/
def Obligations.DefaultDivisorPolynomial : Prop :=
  ∀ W : Nat, 8 ≤ W → poly (Config.defaultDivisor W) =
    Polynomial.X ^ 7 + Polynomial.X ^ 5 + Polynomial.X ^ 4 + Polynomial.X ^ 3 + Polynomial.X + 1

/-- Derived (R25, R5): the machine after reset is in `IDLE` with `cmd_ready = 1`, `rsp_valid = 0`, no response on its
ports and none delivered, at the reference width (log entry 1). That none is delivered yet and that it counts as reset
are the model's own (log entries 2 and 9). -/
def Obligations.ResetStateIsIdleAndReady : Prop :=
  State.reset.cfg.W = 64 ∧ State.reset.eng.ifState = .idle ∧ State.reset.eng.cmdReady false = true ∧
  State.reset.eng.rspValid = false ∧ State.reset.eng.rspPorts = none ∧ State.reset.delivered = [] ∧
  State.reset.live = true ∧ State.reset.eng.div = 0xBB#64

/-! ## The whole machine -/

/-- Derived (R16): the only steps that change `DIV` are a reset and the completion of a SETDIV with an operand that is
not 0, which writes that operand. Before the first reset the spec leaves `DIV` unspecified (R26); that an edge keeps it
there too is the model's choice (log entry 9). -/
def Obligations.OnlySetdivAndResetChangeTheDivisor : Prop :=
  ∀ (s t : State), step s = .next t →
    t.cfg = s.cfg ∧
    (t.eng.div.toNat = s.eng.div.toNat ∨
      s.edge.rst = true ∧ t.eng.div.toNat = (Config.defaultDivisor s.cfg.W).toNat ∨
      s.edge.rst = false ∧ s.eng.ifState = .busy ∧ s.eng.opR = 0b10#2 ∧ s.eng.dataR ≠ 0 ∧
        t.eng.div.toNat = s.eng.dataR.toNat)

/-- Derived (R19, R32): a step uses up one edge, keeps the configuration, and delivers a response only in `RESP` at an
edge without reset with `rsp_ready = 1`: then exactly one, the presented one, after those delivered before. -/
def Obligations.ResponsesAreDeliveredOneByOne : Prop :=
  ∀ (s t : State), step s = .next t →
    ∃ (e : Engine s.cfg.W) (got : List (Response s.cfg.W)) (l : Bool) (k : Nat),
      t = { s with eng := e, edges := s.edges.tail, delivered := got, live := l, draws := k } ∧
      (got = s.delivered ∨
        s.edge.rst = false ∧ s.eng.ifState = .resp ∧ s.edge.rspReady = true ∧
          got = s.delivered ++ [s.eng.response])

/-- Derived (R5, R17, R20, R34): the invariant holds after reset, in every configuration of 8 bits or more, and at
power-up whatever the registers hold. -/
def Obligations.InvariantHoldsAfterReset : Prop :=
  Inv State.reset ∧ (∀ c : Config, c.wf = true → Inv (State.resetAt c)) ∧
  (∀ (c : Config) (anything : Engine c.W), c.wf = true → Inv (State.powerUp c anything))

/-- Derived (R17, R20, R21, R34): every step keeps the invariant: the divisor stays nonzero, the snapshot equals the
divisor while a command is computed, a presented response is the one the latched command's rule gives, and every
delivered response is one a command may have. That `DIV_S`, `OP_R` and `DATA_R`, in whose terms `Inv.answered` says
this, keep their values in `RESP` is the model's choice (log entry 12). -/
def Obligations.StepKeepsTheInvariant : Prop :=
  ∀ (s t : State), Inv s → step s = .next t → Inv t

/-- Derived (R17): under the invariant the divisor's bit length is in `1 .. W` once there has been a reset. -/
def Obligations.DivisorBitLengthIsInRange : Prop :=
  ∀ (s : State), Inv s → s.live = true → 1 ≤ numBits s.eng.div ∧ numBits s.eng.div ≤ s.cfg.W

/-- Derived (R67, R43): where the reserved opcode is answered (the model's choice, log entry 5), an engine that has been
reset never stops: every edge leads to a next state, in which it still counts as reset. -/
def Obligations.AnsweringEngineNeverStops : Prop :=
  ∀ (s : State), Inv s → s.live = true → s.cfg.onIllegal = .answer → ∃ t : State, step s = .next t ∧ t.live = true

/-- Derived (R67): an accepted command whose computation takes any finite number `n` of further cycles presents the
response of its rule after them, if no reset comes; the reserved opcode where it is answered (the model's choice, log
entry 5). -/
def Obligations.AcceptedCommandCompletes : Prop :=
  ∀ (s : State) (xs : List (Edge s.cfg.W)) (y : Edge s.cfg.W) (rest : List (Edge s.cfg.W)), Inv s →
    s.live = true → completes s.cfg (decode s.eng.latched) = true → s.eng.ifState = .busy → s.edges = xs ++ y :: rest →
    (∀ x ∈ xs, x.rst = false ∧ x.stall = true) → y.rst = false → y.stall = false →
    ∃ (e : Engine s.cfg.W) (k : Nat),
      Host.Core.run Sys2Proof.core (xs.length + 1) s = .next { s with eng := e, edges := rest, draws := k } ∧
      e.ifState = .resp ∧ e.response = ruleResponse s.eng.div (decode s.eng.latched) ∧
      e.div = ruleDivisor s.eng.div (decode s.eng.latched)

/-- Derived (R32, R33, R39, R86): for every sequence of commands, whatever the host's and the engine's waits, the
responses delivered and the divisor left are those of the commands' rules applied one after another, in order; the
reserved opcode among them where it is answered (the model's choice, log entry 5). -/
def Obligations.CommandSequencesEqualTheSequentialReading : Prop :=
  ∀ (s : State) (xs : List Exchange) (rest : List (Edge s.cfg.W)), Inv s → s.live = true →
    s.eng.ifState = .idle → (∀ x ∈ xs, x.instr.wellFormed s.cfg.W = true ∧ completes s.cfg x.instr = true) →
    s.edges = xs.flatMap (Exchange.edges s.cfg.W) ++ rest →
    ∃ (e : Engine s.cfg.W) (k : Nat),
      Host.Core.run Sys2Proof.core (xs.flatMap (Exchange.edges s.cfg.W)).length s = .next { s with
        eng := e
        edges := rest
        delivered := s.delivered ++ sequentialResponses s.eng.div (xs.map Exchange.instr)
        draws := k } ∧
      e.ifState = .idle ∧ e.div = sequentialDivisor s.eng.div (xs.map Exchange.instr)

/-- Derived (R68, U8; that there is a configuration is the model's choice, log entry 5): where a run is to stop at the
reserved opcode, as from State.reset, every run from `IDLE` that does not stop is safe: no error response is delivered
that was not there before. -/
def Obligations.StoppingRunsAreSafe : Prop :=
  ∀ (n : Nat) (s t : State), Inv s → s.live = true → s.cfg.onIllegal = .stop → s.eng.ifState = .idle →
    (∀ r ∈ s.delivered, r.err = false) → Host.Core.run Sys2Proof.core n s = .next t → SafeRun n s

/-- Derived (R68, D7, U8): the machine after reset stops at the reserved opcode with the fault `IllegalCommand`,
whatever the operand (the command is placed as log entry 8 says). In every configuration an engine that has been reset
stops for no other reason: an edge leads to a next state in which it still counts as reset, or it is the edge at which
RSVD would be computed, in a configuration that stops there, and the step is that fault (log entry 5). -/
def Obligations.OnlyTheReservedOpcodeStopsAResetEngine : Prop :=
  (∀ nbits w : Nat, 2 ≤ nbits → w % 4 = 3 → step (State.reset.withFetchWord nbits w) = .fault .illegalCommand) ∧
  ∀ (s : State), Inv s → s.live = true →
    (∃ t : State, step s = .next t ∧ t.live = true) ∨
    (s.cfg.onIllegal = .stop ∧ s.eng.ifState = .busy ∧ s.edge.rst = false ∧ s.edge.stall = false ∧
      s.eng.opR = 0b11#2 ∧ step s = .fault .illegalCommand)
end

