-- ==== Sys2Proof/Laws/State.lean ====
section
/-! SUPPORT. One lemma for each field and each update of the registers and of the machine, true by rfl, so that no
later proof unfolds a record update. -/

namespace Sys2Proof.Machine

variable {W : Nat}

/-! `Engine.respond` -/

@[simp] theorem Engine.respond_div (e : Engine W) (d : Word W) (f r : Bool) : (e.respond d f r).div = e.div := rfl
@[simp] theorem Engine.respond_ifState (e : Engine W) (d : Word W) (f r : Bool) : (e.respond d f r).ifState = .resp := rfl
@[simp] theorem Engine.respond_rspData (e : Engine W) (d : Word W) (f r : Bool) : (e.respond d f r).rspData = d := rfl
@[simp] theorem Engine.respond_rspFlag (e : Engine W) (d : Word W) (f r : Bool) : (e.respond d f r).rspFlag = f := rfl
@[simp] theorem Engine.respond_rspErr (e : Engine W) (d : Word W) (f r : Bool) : (e.respond d f r).rspErr = r := rfl
@[simp] theorem Engine.respond_opR (e : Engine W) (d : Word W) (f r : Bool) : (e.respond d f r).opR = e.opR := rfl
@[simp] theorem Engine.respond_dataR (e : Engine W) (d : Word W) (f r : Bool) : (e.respond d f r).dataR = e.dataR := rfl
@[simp] theorem Engine.respond_divS (e : Engine W) (d : Word W) (f r : Bool) : (e.respond d f r).divS = e.divS := rfl
@[simp] theorem Engine.respond_crc (e : Engine W) (d : Word W) (f r : Bool) : (e.respond d f r).crc = e.crc := rfl
@[simp] theorem Engine.respond_nb (e : Engine W) (d : Word W) (f r : Bool) : (e.respond d f r).nb = e.nb := rfl

/-! `Engine.raiseIllegalCommand` -/

@[simp] theorem Engine.raiseIllegalCommand_div (e : Engine W) : (e.raiseIllegalCommand).div = e.div := rfl
@[simp] theorem Engine.raiseIllegalCommand_ifState (e : Engine W) : (e.raiseIllegalCommand).ifState = .resp := rfl
@[simp] theorem Engine.raiseIllegalCommand_rspData (e : Engine W) : (e.raiseIllegalCommand).rspData = 0 := rfl
@[simp] theorem Engine.raiseIllegalCommand_rspFlag (e : Engine W) : (e.raiseIllegalCommand).rspFlag = false := rfl
@[simp] theorem Engine.raiseIllegalCommand_rspErr (e : Engine W) : (e.raiseIllegalCommand).rspErr = true := rfl
@[simp] theorem Engine.raiseIllegalCommand_opR (e : Engine W) : (e.raiseIllegalCommand).opR = e.opR := rfl
@[simp] theorem Engine.raiseIllegalCommand_dataR (e : Engine W) : (e.raiseIllegalCommand).dataR = e.dataR := rfl
@[simp] theorem Engine.raiseIllegalCommand_divS (e : Engine W) : (e.raiseIllegalCommand).divS = e.divS := rfl
@[simp] theorem Engine.raiseIllegalCommand_crc (e : Engine W) : (e.raiseIllegalCommand).crc = e.crc := rfl
@[simp] theorem Engine.raiseIllegalCommand_nb (e : Engine W) : (e.raiseIllegalCommand).nb = e.nb := rfl

/-! `Engine.setWork` -/

@[simp] theorem Engine.setWork_div (e : Engine W) (r : Word W) : (e.setWork r).div = e.div := rfl
@[simp] theorem Engine.setWork_ifState (e : Engine W) (r : Word W) : (e.setWork r).ifState = e.ifState := rfl
@[simp] theorem Engine.setWork_rspData (e : Engine W) (r : Word W) : (e.setWork r).rspData = e.rspData := rfl
@[simp] theorem Engine.setWork_rspFlag (e : Engine W) (r : Word W) : (e.setWork r).rspFlag = e.rspFlag := rfl
@[simp] theorem Engine.setWork_rspErr (e : Engine W) (r : Word W) : (e.setWork r).rspErr = e.rspErr := rfl
@[simp] theorem Engine.setWork_opR (e : Engine W) (r : Word W) : (e.setWork r).opR = e.opR := rfl
@[simp] theorem Engine.setWork_dataR (e : Engine W) (r : Word W) : (e.setWork r).dataR = e.dataR := rfl
@[simp] theorem Engine.setWork_divS (e : Engine W) (r : Word W) : (e.setWork r).divS = e.divS := rfl
@[simp] theorem Engine.setWork_crc (e : Engine W) (r : Word W) : (e.setWork r).crc = r := rfl
@[simp] theorem Engine.setWork_nb (e : Engine W) (r : Word W) : (e.setWork r).nb = numBitsReg r := rfl

/-! `Engine.writeDiv` -/

@[simp] theorem Engine.writeDiv_div (e : Engine W) (v : Word W) :
    (e.writeDiv v).div = if v = 0 then e.div else v := by
  unfold Engine.writeDiv; split <;> rfl
@[simp] theorem Engine.writeDiv_ifState (e : Engine W) (v : Word W) : (e.writeDiv v).ifState = e.ifState := by
  unfold Engine.writeDiv; split <;> rfl
@[simp] theorem Engine.writeDiv_rspData (e : Engine W) (v : Word W) : (e.writeDiv v).rspData = e.rspData := by
  unfold Engine.writeDiv; split <;> rfl
@[simp] theorem Engine.writeDiv_rspFlag (e : Engine W) (v : Word W) : (e.writeDiv v).rspFlag = e.rspFlag := by
  unfold Engine.writeDiv; split <;> rfl
@[simp] theorem Engine.writeDiv_rspErr (e : Engine W) (v : Word W) : (e.writeDiv v).rspErr = e.rspErr := by
  unfold Engine.writeDiv; split <;> rfl
@[simp] theorem Engine.writeDiv_opR (e : Engine W) (v : Word W) : (e.writeDiv v).opR = e.opR := by
  unfold Engine.writeDiv; split <;> rfl
@[simp] theorem Engine.writeDiv_dataR (e : Engine W) (v : Word W) : (e.writeDiv v).dataR = e.dataR := by
  unfold Engine.writeDiv; split <;> rfl
@[simp] theorem Engine.writeDiv_divS (e : Engine W) (v : Word W) : (e.writeDiv v).divS = e.divS := by
  unfold Engine.writeDiv; split <;> rfl
@[simp] theorem Engine.writeDiv_crc (e : Engine W) (v : Word W) : (e.writeDiv v).crc = e.crc := by
  unfold Engine.writeDiv; split <;> rfl
@[simp] theorem Engine.writeDiv_nb (e : Engine W) (v : Word W) : (e.writeDiv v).nb = e.nb := by
  unfold Engine.writeDiv; split <;> rfl

/-! `Engine.latch` -/

@[simp] theorem Engine.latch_div (e : Engine W) (o : BitVec 2) (x : Word W) : (e.latch o x).div = e.div := rfl
@[simp] theorem Engine.latch_ifState (e : Engine W) (o : BitVec 2) (x : Word W) : (e.latch o x).ifState = .busy := rfl
@[simp] theorem Engine.latch_rspData (e : Engine W) (o : BitVec 2) (x : Word W) : (e.latch o x).rspData = e.rspData := rfl
@[simp] theorem Engine.latch_rspFlag (e : Engine W) (o : BitVec 2) (x : Word W) : (e.latch o x).rspFlag = e.rspFlag := rfl
@[simp] theorem Engine.latch_rspErr (e : Engine W) (o : BitVec 2) (x : Word W) : (e.latch o x).rspErr = e.rspErr := rfl
@[simp] theorem Engine.latch_opR (e : Engine W) (o : BitVec 2) (x : Word W) : (e.latch o x).opR = o := rfl
@[simp] theorem Engine.latch_dataR (e : Engine W) (o : BitVec 2) (x : Word W) : (e.latch o x).dataR = x := rfl
@[simp] theorem Engine.latch_divS (e : Engine W) (o : BitVec 2) (x : Word W) : (e.latch o x).divS = e.div := rfl
@[simp] theorem Engine.latch_crc (e : Engine W) (o : BitVec 2) (x : Word W) : (e.latch o x).crc = e.crc := rfl
@[simp] theorem Engine.latch_nb (e : Engine W) (o : BitVec 2) (x : Word W) : (e.latch o x).nb = e.nb := rfl

/-! `Engine.loseResponse` -/

@[simp] theorem Engine.loseResponse_div (e : Engine W) (n : Nat) : (e.loseResponse n).div = e.div := rfl
@[simp] theorem Engine.loseResponse_ifState (e : Engine W) (n : Nat) : (e.loseResponse n).ifState = e.ifState := rfl
@[simp] theorem Engine.loseResponse_rspData (e : Engine W) (n : Nat) : (e.loseResponse n).rspData = Config.unspecifiedWord W n := rfl
@[simp] theorem Engine.loseResponse_rspFlag (e : Engine W) (n : Nat) : (e.loseResponse n).rspFlag = Config.unspecifiedBit (n + 1) := rfl
@[simp] theorem Engine.loseResponse_rspErr (e : Engine W) (n : Nat) : (e.loseResponse n).rspErr = Config.unspecifiedBit (n + 2) := rfl
@[simp] theorem Engine.loseResponse_opR (e : Engine W) (n : Nat) : (e.loseResponse n).opR = e.opR := rfl
@[simp] theorem Engine.loseResponse_dataR (e : Engine W) (n : Nat) : (e.loseResponse n).dataR = e.dataR := rfl
@[simp] theorem Engine.loseResponse_divS (e : Engine W) (n : Nat) : (e.loseResponse n).divS = e.divS := rfl
@[simp] theorem Engine.loseResponse_crc (e : Engine W) (n : Nat) : (e.loseResponse n).crc = e.crc := rfl
@[simp] theorem Engine.loseResponse_nb (e : Engine W) (n : Nat) : (e.loseResponse n).nb = e.nb := rfl

/-! `Engine.afterReset`: the two registers whose value the spec gives. -/

@[simp] theorem Engine.afterReset_div (n : Nat) : (Engine.afterReset W n).div = Config.defaultDivisor W := rfl
@[simp] theorem Engine.afterReset_ifState (n : Nat) : (Engine.afterReset W n).ifState = .idle := rfl

/-! What is read of the registers, after an update of other registers. -/

@[simp] theorem Engine.respond_latched (e : Engine W) (d : Word W) (f r : Bool) :
    (e.respond d f r).latched = e.latched := rfl
@[simp] theorem Engine.raiseIllegalCommand_latched (e : Engine W) : e.raiseIllegalCommand.latched = e.latched := rfl
@[simp] theorem Engine.setWork_latched (e : Engine W) (r : Word W) : (e.setWork r).latched = e.latched := rfl
@[simp] theorem Engine.writeDiv_latched (e : Engine W) (v : Word W) : (e.writeDiv v).latched = e.latched := by
  simp [Engine.latched]
@[simp] theorem Engine.loseResponse_latched (e : Engine W) (n : Nat) : (e.loseResponse n).latched = e.latched := rfl
@[simp] theorem Engine.latch_latched (e : Engine W) (o : BitVec 2) (x : Word W) :
    (e.latch o x).latched = commandWord x o := rfl
@[simp] theorem Engine.respond_response (e : Engine W) (d : Word W) (f r : Bool) :
    (e.respond d f r).response = ⟨d, f, r⟩ := rfl
@[simp] theorem Engine.raiseIllegalCommand_response (e : Engine W) :
    e.raiseIllegalCommand.response = ⟨0, false, true⟩ := rfl

/-! `State.withEngine` -/

@[simp] theorem State.withEngine_cfg (s : State) (e : Engine s.cfg.W) : (s.withEngine e).cfg = s.cfg := rfl
@[simp] theorem State.withEngine_eng (s : State) (e : Engine s.cfg.W) : (s.withEngine e).eng = e := rfl
@[simp] theorem State.withEngine_edges (s : State) (e : Engine s.cfg.W) : (s.withEngine e).edges = s.edges := rfl
@[simp] theorem State.withEngine_delivered (s : State) (e : Engine s.cfg.W) : (s.withEngine e).delivered = s.delivered := rfl
@[simp] theorem State.withEngine_live (s : State) (e : Engine s.cfg.W) : (s.withEngine e).live = s.live := rfl
@[simp] theorem State.withEngine_draws (s : State) (e : Engine s.cfg.W) : (s.withEngine e).draws = s.draws := rfl

/-! `State.dropEdge` -/

@[simp] theorem State.dropEdge_cfg (s : State) : (s.dropEdge).cfg = s.cfg := rfl
@[simp] theorem State.dropEdge_eng (s : State) : (s.dropEdge).eng = s.eng := rfl
@[simp] theorem State.dropEdge_edges (s : State) : (s.dropEdge).edges = s.edges.tail := rfl
@[simp] theorem State.dropEdge_delivered (s : State) : (s.dropEdge).delivered = s.delivered := rfl
@[simp] theorem State.dropEdge_live (s : State) : (s.dropEdge).live = s.live := rfl
@[simp] theorem State.dropEdge_draws (s : State) : (s.dropEdge).draws = s.draws := rfl

/-! `State.loseResponse` -/

@[simp] theorem State.loseResponse_cfg (s : State) : (s.loseResponse).cfg = s.cfg := rfl
@[simp] theorem State.loseResponse_eng (s : State) : (s.loseResponse).eng = s.eng.loseResponse s.draws := rfl
@[simp] theorem State.loseResponse_edges (s : State) : (s.loseResponse).edges = s.edges := rfl
@[simp] theorem State.loseResponse_delivered (s : State) : (s.loseResponse).delivered = s.delivered := rfl
@[simp] theorem State.loseResponse_live (s : State) : (s.loseResponse).live = s.live := rfl
@[simp] theorem State.loseResponse_draws (s : State) : (s.loseResponse).draws = s.draws + 3 := rfl

/-! `State.applyReset` -/

@[simp] theorem State.applyReset_cfg (s : State) : (s.applyReset).cfg = s.cfg := rfl
@[simp] theorem State.applyReset_eng (s : State) : (s.applyReset).eng = Engine.afterReset s.cfg.W s.draws := rfl
@[simp] theorem State.applyReset_edges (s : State) : (s.applyReset).edges = s.edges := rfl
@[simp] theorem State.applyReset_delivered (s : State) : (s.applyReset).delivered = s.delivered := rfl
@[simp] theorem State.applyReset_live (s : State) : (s.applyReset).live = true := rfl
@[simp] theorem State.applyReset_draws (s : State) : (s.applyReset).draws = s.draws + 8 := rfl

/-! `State.accept` -/

@[simp] theorem State.accept_cfg (s : State) (o : BitVec 2) (x : Word s.cfg.W) : (s.accept o x).cfg = s.cfg := rfl
@[simp] theorem State.accept_eng (s : State) (o : BitVec 2) (x : Word s.cfg.W) : (s.accept o x).eng = (s.eng.latch o x).loseResponse s.draws := rfl
@[simp] theorem State.accept_edges (s : State) (o : BitVec 2) (x : Word s.cfg.W) : (s.accept o x).edges = s.edges := rfl
@[simp] theorem State.accept_delivered (s : State) (o : BitVec 2) (x : Word s.cfg.W) : (s.accept o x).delivered = s.delivered := rfl
@[simp] theorem State.accept_live (s : State) (o : BitVec 2) (x : Word s.cfg.W) : (s.accept o x).live = s.live := rfl
@[simp] theorem State.accept_draws (s : State) (o : BitVec 2) (x : Word s.cfg.W) : (s.accept o x).draws = s.draws + 3 := rfl

/-! `State.deliver` -/

@[simp] theorem State.deliver_cfg (s : State) : (s.deliver).cfg = s.cfg := rfl
@[simp] theorem State.deliver_eng (s : State) : (s.deliver).eng = Engine.loseResponse { s.eng with ifState := .idle } s.draws := rfl
@[simp] theorem State.deliver_edges (s : State) : (s.deliver).edges = s.edges := rfl
@[simp] theorem State.deliver_delivered (s : State) : (s.deliver).delivered = s.delivered ++ [s.eng.response] := rfl
@[simp] theorem State.deliver_live (s : State) : (s.deliver).live = s.live := rfl
@[simp] theorem State.deliver_draws (s : State) : (s.deliver).draws = s.draws + 3 := rfl

/-! `State.placeCommand` -/

@[simp] theorem State.placeCommand_cfg (s : State) (c : BitVec (s.cfg.W + 2)) : (s.placeCommand c).cfg = s.cfg := rfl
@[simp] theorem State.placeCommand_eng (s : State) (c : BitVec (s.cfg.W + 2)) : (s.placeCommand c).eng = s.eng.latch (opField c) (dataField c) := rfl
@[simp] theorem State.placeCommand_edges (s : State) (c : BitVec (s.cfg.W + 2)) : (s.placeCommand c).edges = Edge.quiet :: s.edges := rfl
@[simp] theorem State.placeCommand_delivered (s : State) (c : BitVec (s.cfg.W + 2)) : (s.placeCommand c).delivered = s.delivered := rfl
@[simp] theorem State.placeCommand_live (s : State) (c : BitVec (s.cfg.W + 2)) : (s.placeCommand c).live = true := rfl
@[simp] theorem State.placeCommand_draws (s : State) (c : BitVec (s.cfg.W + 2)) : (s.placeCommand c).draws = s.draws := rfl

end Sys2Proof.Machine
end

