-- ==== Sys2Proof/Laws/Clock.lean ====
section
/-! SUPPORT. What one edge can do, said once, and how a run unfolds. -/

namespace Sys2Proof.Machine

/-- The coming edge of a list that has one. -/
theorem State.edge_of_cons {s : State} {x : Edge s.cfg.W} {rest : List (Edge s.cfg.W)} (h : s.edges = x :: rest) :
    s.edge = x := by
  simp [State.edge, h]

/-! What each kind of edge does. -/

theorem step_of_rst {s : State} (hr : s.edge.rst = true) : step s = .next s.dropEdge.applyReset := by
  rw [step, clockEdge, if_pos hr]

theorem step_of_not_rst {s : State} (hr : s.edge.rst = false) (hl : s.live = true) :
    step s = interfaceEdge s.dropEdge s.edge := by
  rw [step, clockEdge, if_neg (by simp [hr]), if_pos hl]

theorem step_before_reset_command {s : State} (hr : s.edge.rst = false) (hl : s.live = false)
    (hv : s.edge.cmdValid = true) : step s = .fault .beforeFirstReset := by
  rw [step, clockEdge, if_neg (by simp [hr]), if_neg (by simp [hl]), if_pos hv]

theorem step_before_reset_wait {s : State} (hr : s.edge.rst = false) (hl : s.live = false)
    (hv : s.edge.cmdValid = false) : step s = .next s.dropEdge := by
  rw [step, clockEdge, if_neg (by simp [hr]), if_neg (by simp [hl]), if_neg (by simp [hv])]

theorem step_accept {s : State} (hr : s.edge.rst = false) (hl : s.live = true) (hi : s.eng.ifState = .idle)
    (hv : s.edge.cmdValid = true) : step s = .next (s.dropEdge.accept s.edge.cmdOp s.edge.cmdData) := by
  simp [step_of_not_rst hr hl, interfaceEdge, hi, Edge.accepts, Engine.cmdReady, hr, hv]

theorem step_idle {s : State} (hr : s.edge.rst = false) (hl : s.live = true) (hi : s.eng.ifState = .idle)
    (hv : s.edge.cmdValid = false) : step s = .next s.dropEdge.loseResponse := by
  simp [step_of_not_rst hr hl, interfaceEdge, hi, Edge.accepts, hv]

theorem step_stall {s : State} (hr : s.edge.rst = false) (hl : s.live = true) (hi : s.eng.ifState = .busy)
    (hs : s.edge.stall = true) : step s = .next s.dropEdge.loseResponse := by
  simp [step_of_not_rst hr hl, interfaceEdge, hi, hs]

theorem step_compute {s : State} (hr : s.edge.rst = false) (hl : s.live = true) (hi : s.eng.ifState = .busy)
    (hs : s.edge.stall = false) : step s = exec (decode s.eng.latched) s.dropEdge := by
  simp [step_of_not_rst hr hl, interfaceEdge, hi, hs]

theorem step_deliver {s : State} (hr : s.edge.rst = false) (hl : s.live = true) (hi : s.eng.ifState = .resp)
    (hv : s.edge.rspReady = true) : step s = .next s.dropEdge.deliver := by
  simp [step_of_not_rst hr hl, interfaceEdge, hi, Edge.takes, Engine.rspValid, hv]

theorem step_hold {s : State} (hr : s.edge.rst = false) (hl : s.live = true) (hi : s.eng.ifState = .resp)
    (hv : s.edge.rspReady = false) : step s = .next s.dropEdge := by
  simp [step_of_not_rst hr hl, interfaceEdge, hi, Edge.takes, hv]

/-- Everything an edge can do when it leads to a next state. -/
theorem step_next {s t : State} (h : step s = .next t) :
    (s.edge.rst = true ∧ t = s.dropEdge.applyReset) ∨
    (s.edge.rst = false ∧ s.live = false ∧ s.edge.cmdValid = false ∧ t = s.dropEdge) ∨
    (s.edge.rst = false ∧ s.live = true ∧ s.eng.ifState = .idle ∧ s.edge.cmdValid = true ∧
      t = s.dropEdge.accept s.edge.cmdOp s.edge.cmdData) ∨
    (s.edge.rst = false ∧ s.live = true ∧ s.eng.ifState = .idle ∧ s.edge.cmdValid = false ∧
      t = s.dropEdge.loseResponse) ∨
    (s.edge.rst = false ∧ s.live = true ∧ s.eng.ifState = .busy ∧ s.edge.stall = true ∧
      t = s.dropEdge.loseResponse) ∨
    (s.edge.rst = false ∧ s.live = true ∧ s.eng.ifState = .busy ∧ s.edge.stall = false ∧
      exec (decode s.eng.latched) s.dropEdge = .next t) ∨
    (s.edge.rst = false ∧ s.live = true ∧ s.eng.ifState = .resp ∧ s.edge.rspReady = true ∧
      t = s.dropEdge.deliver) ∨
    (s.edge.rst = false ∧ s.live = true ∧ s.eng.ifState = .resp ∧ s.edge.rspReady = false ∧ t = s.dropEdge) := by
  cases hr : s.edge.rst
  · cases hl : s.live
    · cases hv : s.edge.cmdValid
      · simp_all [step_before_reset_wait hr hl hv]
      · simp [step_before_reset_command hr hl hv] at h
    · cases hi : s.eng.ifState
      · cases hv : s.edge.cmdValid
        · simp_all [step_idle hr hl hi hv]
        · simp_all [step_accept hr hl hi hv]
      · cases hs : s.edge.stall
        · simp_all [step_compute hr hl hi hs]
        · simp_all [step_stall hr hl hi hs]
      · cases hv : s.edge.rspReady
        · simp_all [step_hold hr hl hi hv]
        · simp_all [step_deliver hr hl hi hv]
  · simp_all [step_of_rst hr]

/-! Which commands a configuration runs to their response. -/

@[simp] theorem completes_encode (c : Config) (n : Nat) : completes c (.encode n) = true := rfl
@[simp] theorem completes_verify (c : Config) (n : Nat) : completes c (.verify n) = true := rfl
@[simp] theorem completes_setdiv (c : Config) (n : Nat) : completes c (.setdiv n) = true := rfl
@[simp] theorem completes_rsvd (c : Config) (n : Nat) : completes c (.rsvd n) = decide (c.onIllegal = .answer) := rfl

/-- Where the reserved opcode is answered, every command completes. -/
theorem completes_of_answer {c : Config} (h : c.onIllegal = .answer) (i : Instr) : completes c i = true := by
  cases i <;> simp [h]

/-- A command that does not complete is the reserved opcode where a run stops at it. -/
theorem not_completes {c : Config} {i : Instr} (h : completes c i = false) : c.onIllegal = .stop ∧ ∃ n, i = .rsvd n := by
  cases i with
  | rsvd n =>
    refine ⟨?_, n, rfl⟩
    cases hc : c.onIllegal
    · simp [hc] at h
    · rfl
  | _ => simp at h

/-! Runs. -/

/-- A run of any machine of one step more begins with that step. -/
theorem runOf_succ {M : Host.Core} {s t : M.State} {n : Nat} (h : M.step s = .next t) :
    M.run (n + 1) s = M.run n t := by
  rw [Host.Core.run, h]

/-- A run of any machine of `m + n` steps that gets through its first `m`. -/
theorem runOf_add {M : Host.Core} {s t : M.State} {m n : Nat} (h : M.run m s = .next t) :
    M.run (m + n) s = M.run n t := by
  induction m generalizing s with
  | zero =>
    cases h
    rw [Nat.zero_add]
  | succ m ih =>
    rw [Host.Core.run] at h
    cases hst : M.step s with
    | next s' =>
      rw [hst] at h
      rw [Nat.succ_add, runOf_succ hst]
      exact ih h
    | fault r => rw [hst] at h; cases h
    | refused r => rw [hst] at h; cases h

/-- What every step of a machine keeps, every run of it keeps. -/
theorem runOf_keeps {M : Host.Core} {P : M.State → Prop} (hP : ∀ s t, P s → M.step s = .next t → P t) {s t : M.State}
    {n : Nat} (hs : P s) (h : M.run n s = .next t) : P t := by
  induction n generalizing s with
  | zero =>
    cases h
    exact hs
  | succ n ih =>
    rw [Host.Core.run] at h
    cases hst : M.step s with
    | next s' =>
      rw [hst] at h
      exact ih (hP s s' hs hst) h
    | fault r => rw [hst] at h; cases h
    | refused r => rw [hst] at h; cases h

/-- What every edge keeps, every run keeps. -/
theorem run_keeps {P : State → Prop} (hP : ∀ s t, P s → step s = .next t → P t) {s t : State} {n : Nat} (hs : P s)
    (h : Host.Core.run Sys2Proof.core n s = .next t) : P t :=
  runOf_keeps (M := Sys2Proof.core) (P := P) hP hs h

/-- A run of one edge more begins with a step. -/
theorem run_succ_of_step {s t : State} {n : Nat} (h : step s = .next t) :
    Host.Core.run Sys2Proof.core (n + 1) s = Host.Core.run Sys2Proof.core n t :=
  runOf_succ (M := Sys2Proof.core) h

/-- A run of `m + n` edges that gets through its first `m`. -/
theorem run_add_of_run {s t : State} {m n : Nat} (h : Host.Core.run Sys2Proof.core m s = .next t) :
    Host.Core.run Sys2Proof.core (m + n) s = Host.Core.run Sys2Proof.core n t :=
  runOf_add (M := Sys2Proof.core) h

end Sys2Proof.Machine
end

