-- ==== Sys2Proof/Laws/Datapath.lean ====
section
/-! SUPPORT. The bit length and one pass of the reduction loop (spec/40_divider.md R48, R50, R51). -/

namespace Sys2Proof.Machine

variable {W : Nat}

/-- A bit below the scan's start is set only below the scan's result. -/
theorem lt_scanBits {v : Word W} {n i : Nat} (hi : i < n) (hv : v.getLsbD i = true) : i < scanBits v n := by
  induction n with
  | zero => omega
  | succ n ih =>
    unfold scanBits
    split
    · omega
    · rename_i h
      have : i ≠ n := fun e => h (e ▸ hv)
      exact ih (by omega)

/-- A scan that finds something ends just above a set bit. -/
theorem getLsbD_scanBits {v : Word W} {n : Nat} (h : scanBits v n ≠ 0) :
    v.getLsbD (scanBits v n - 1) = true := by
  induction n with
  | zero => exact absurd rfl h
  | succ n ih =>
    unfold scanBits at h ⊢
    split
    · simpa
    · rename_i hv
      rw [if_neg hv] at h
      exact ih h

/-- A set bit lies below the bit length. -/
theorem lt_numBits_of_getLsbD {v : Word W} {i : Nat} (hv : v.getLsbD i = true) : i < numBits v :=
  lt_scanBits (BitVec.lt_of_getLsbD hv) hv

/-- Every bit from the bit length on is 0. -/
theorem getLsbD_eq_false_of_numBits_le {v : Word W} {i : Nat} (h : numBits v ≤ i) : v.getLsbD i = false := by
  by_contra hv
  have := lt_numBits_of_getLsbD (Bool.eq_true_of_not_eq_false hv)
  omega

/-- The bit just below the bit length is set. -/
theorem getLsbD_numBits_sub_one {v : Word W} (h : numBits v ≠ 0) : v.getLsbD (numBits v - 1) = true :=
  getLsbD_scanBits h

/-- The bit length is at most `k` exactly when no bit from `k` on is set. -/
theorem numBits_le_iff {v : Word W} {k : Nat} : numBits v ≤ k ↔ ∀ i, k ≤ i → v.getLsbD i = false := by
  constructor
  · intro h i hi
    exact getLsbD_eq_false_of_numBits_le (by omega)
  · intro h
    by_contra hk
    have := getLsbD_numBits_sub_one (v := v) (by omega)
    rw [h _ (by omega)] at this
    exact Bool.noConfusion this

/-- Bit `n` is the top set bit exactly when the bit length is `n + 1`. -/
theorem numBits_eq_succ {v : Word W} {n : Nat} (hn : v.getLsbD n = true)
    (h : ∀ i, n < i → v.getLsbD i = false) : numBits v = n + 1 := by
  have h1 := lt_numBits_of_getLsbD hn
  have h2 : numBits v ≤ n + 1 := numBits_le_iff.2 fun i hi => h i hi
  omega

/-- Only 0 has bit length 0. -/
theorem numBits_eq_zero_iff {v : Word W} : numBits v = 0 ↔ v = 0 := by
  constructor
  · intro h
    apply BitVec.eq_of_getLsbD_eq
    intro i _
    rw [getLsbD_eq_false_of_numBits_le (by omega)]
    simp
  · rintro rfl
    exact Nat.le_zero.1 (numBits_le_iff.2 fun i _ => by simp)

theorem numBits_pos {v : Word W} (h : v ≠ 0) : 0 < numBits v :=
  Nat.pos_of_ne_zero fun e => h (numBits_eq_zero_iff.1 e)

/-- Inside the loop the aligned divisor has the bit length of `crc`: the source's guard never skips an XOR (R51). -/
theorem numBits_aligned {d crc : Word W} (hd : d ≠ 0) (h : numBits d ≤ numBits crc) :
    numBits (aligned d crc) = numBits crc := by
  have hp := numBits_pos hd
  have hw := numBits_le crc
  have hn : numBits crc = (numBits crc - 1) + 1 := by omega
  rw [hn]
  apply numBits_eq_succ
  · unfold aligned
    rw [BitVec.getLsbD_shiftLeft]
    have e : numBits crc - 1 - (numBits crc - numBits d) = numBits d - 1 := by omega
    rw [e, getLsbD_numBits_sub_one (by omega)]
    simp
    omega
  · intro i hi
    unfold aligned
    rw [BitVec.getLsbD_shiftLeft, getLsbD_eq_false_of_numBits_le (v := d) (by omega)]
    simp

/-- Inside the loop a pass is the XOR with the aligned divisor. -/
theorem reducePass_eq {d crc : Word W} (hd : d ≠ 0) (h : numBits d ≤ numBits crc) :
    reducePass d crc = crc ^^^ aligned d crc := by
  unfold reducePass
  rw [if_pos (numBits_aligned hd h)]

/-- Two words of one bit length, not 0, have an XOR that is shorter: their top bits cancel. -/
theorem numBits_xor_lt {a b : Word W} (h : numBits a = numBits b) (ha : a ≠ 0) : numBits (a ^^^ b) < numBits a := by
  have hp := numBits_pos ha
  have : numBits (a ^^^ b) ≤ numBits a - 1 := by
    apply numBits_le_iff.2
    intro i hi
    rw [BitVec.getLsbD_xor]
    by_cases e : i = numBits a - 1
    · subst e
      rw [getLsbD_numBits_sub_one (v := a) (by omega), h, getLsbD_numBits_sub_one (v := b) (by omega)]
      rfl
    · rw [getLsbD_eq_false_of_numBits_le (v := a) (by omega), getLsbD_eq_false_of_numBits_le (v := b) (by omega)]
      rfl
  omega

/-- A pass shortens: a word as long as the divisor, or longer, loses its top bit. -/
theorem numBits_reducePass_lt {d crc : Word W} (hd : d ≠ 0) (h : numBits d ≤ numBits crc) :
    numBits (reducePass d crc) < numBits crc := by
  have hp := numBits_pos hd
  rw [reducePass_eq hd h]
  exact numBits_xor_lt (numBits_aligned hd h).symm fun e => by
    rw [numBits_eq_zero_iff.2 e] at h
    omega

/-- The loop packaged as an induction: what holds of a word shorter than the divisor and itself, and comes back through
a pass, holds of every word that the fuel is enough for and its remainder. -/
theorem reduceLoop_induction {d : Word W} (hd : d ≠ 0) {P : Word W → Word W → Prop}
    (stop : ∀ x, numBits x < numBits d → P x x)
    (pass : ∀ x r, numBits d ≤ numBits x → P (reducePass d x) r → P x r) :
    ∀ (fuel : Nat) (x : Word W), numBits x ≤ fuel → P x (reduceLoop d fuel x) := by
  have hp := numBits_pos hd
  intro fuel
  induction fuel with
  | zero => exact fun x hx => stop x (by omega)
  | succ fuel ih =>
    intro x hx
    unfold reduceLoop
    split
    · rename_i h
      have := numBits_reducePass_lt hd h
      exact pass x _ h (ih _ (by omega))
    · rename_i h
      exact stop x (by omega)

/-- The same for `REDUCE`. -/
theorem reduce_induction {d : Word W} (hd : d ≠ 0) {P : Word W → Word W → Prop}
    (stop : ∀ x, numBits x < numBits d → P x x)
    (pass : ∀ x r, numBits d ≤ numBits x → P (reducePass d x) r → P x r) (x : Word W) : P x (reduce x d) :=
  reduceLoop_induction hd stop pass W x (numBits_le x)

end Sys2Proof.Machine
end

