-- ==== Sys2Proof/Laws/Ops.lean ====
section
/-! SUPPORT. What each shared operation and each meaning can answer, said once. -/

namespace Sys2Proof.Machine

/-- A word's own number is the word. -/
@[simp] theorem zextW_toNat {W : Nat} (v : Word W) : zextW W v.toNat = v := by
  simp [zextW]

/-- A well-formed command's operand is at most `MASK_W` (30_encoding.md R46). -/
theorem wellFormed_iff_le_maskW {W : Nat} {i : Instr} : i.wellFormed W = true ↔ i.data ≤ maskW W := by
  have := Nat.two_pow_pos W
  simp only [Instr.wellFormed, maskW, decide_eq_true_eq]
  omega

/-- An operand in range is read as it stands. -/
theorem withOperand_of_lt {s : State} {n : Nat} {k : Word s.cfg.W → Host.Outcome State Fault Refusal}
    (h : n < 2 ^ s.cfg.W) : withOperand s n k = k (zextW s.cfg.W n) := by
  simp [withOperand, operand, h]

/-- A number out of range is refused. -/
theorem withOperand_of_le {s : State} {n : Nat} {k : Word s.cfg.W → Host.Outcome State Fault Refusal}
    (h : 2 ^ s.cfg.W ≤ n) : withOperand s n k = .refused .operandTooWide := by
  simp [withOperand, operand, Nat.not_lt.2 h]

/-- A next state comes from an operand in range. -/
theorem withOperand_next {s t : State} {n : Nat} {k : Word s.cfg.W → Host.Outcome State Fault Refusal}
    (h : withOperand s n k = .next t) : n < 2 ^ s.cfg.W ∧ k (zextW s.cfg.W n) = .next t := by
  by_cases hn : n < 2 ^ s.cfg.W
  · exact ⟨hn, by rwa [withOperand_of_lt hn] at h⟩
  · rw [withOperand_of_le (by omega)] at h
    cases h

/-- A divisor that is not 0 is the snapshot. -/
theorem withDivisor_of_ne {s : State} {k : Word s.cfg.W → Host.Outcome State Fault Refusal}
    (h : s.eng.divS ≠ 0) : withDivisor s k = k s.eng.divS := by
  rw [withDivisor, if_neg h]

/-- A next state comes from a divisor that is not 0. -/
theorem withDivisor_next {s t : State} {k : Word s.cfg.W → Host.Outcome State Fault Refusal}
    (h : withDivisor s k = .next t) : s.eng.divS ≠ 0 ∧ k s.eng.divS = .next t := by
  by_cases hd : s.eng.divS = 0
  · rw [withDivisor, if_pos hd] at h
    cases h
  · exact ⟨hd, by rwa [withDivisor_of_ne hd] at h⟩

/-- Everything ENCODE can answer as a next state. -/
theorem execEncode_next {n : Nat} {s t : State} (h : execEncode n s = .next t) :
    n < 2 ^ s.cfg.W ∧ s.eng.divS ≠ 0 ∧
      t = s.withEngine ((s.eng.setWork (reduce (widen (zextW s.cfg.W n) s.eng.divS) s.eng.divS)).respond
        (codeword (zextW s.cfg.W n) s.eng.divS) false false) := by
  obtain ⟨hn, h⟩ := withOperand_next h
  obtain ⟨hd, h⟩ := withDivisor_next h
  exact ⟨hn, hd, (Host.Outcome.next.inj h).symm⟩

/-- Everything VERIFY can answer as a next state. -/
theorem execVerify_next {n : Nat} {s t : State} (h : execVerify n s = .next t) :
    n < 2 ^ s.cfg.W ∧ s.eng.divS ≠ 0 ∧
      t = s.withEngine ((s.eng.setWork (reduce (zextW s.cfg.W n) s.eng.divS)).respond 0
        (zeroRemainder (reduce (zextW s.cfg.W n) s.eng.divS)) false) := by
  obtain ⟨hn, h⟩ := withOperand_next h
  obtain ⟨hd, h⟩ := withDivisor_next h
  exact ⟨hn, hd, (Host.Outcome.next.inj h).symm⟩

/-- Everything SETDIV can answer as a next state. -/
theorem execSetdiv_next {n : Nat} {s t : State} (h : execSetdiv n s = .next t) :
    n < 2 ^ s.cfg.W ∧ t = s.withEngine ((s.eng.writeDiv (zextW s.cfg.W n)).respond 0 false false) := by
  obtain ⟨hn, h⟩ := withOperand_next h
  exact ⟨hn, (Host.Outcome.next.inj h).symm⟩

/-- Everything RSVD can answer as a next state. -/
theorem execRsvd_next {n : Nat} {s t : State} (h : execRsvd n s = .next t) :
    s.cfg.onIllegal = .answer ∧ t = s.withEngine s.eng.raiseIllegalCommand := by
  unfold execRsvd at h
  split at h
  · rename_i hc
    exact ⟨hc, (Host.Outcome.next.inj h).symm⟩
  · cases h

/-- RSVD where the reserved opcode is answered. -/
theorem execRsvd_of_answer {n : Nat} {s : State} (h : s.cfg.onIllegal = .answer) :
    execRsvd n s = .next (s.withEngine s.eng.raiseIllegalCommand) := by
  simp [execRsvd, h]

/-- RSVD where a run stops at the reserved opcode. -/
theorem execRsvd_of_stop {n : Nat} {s : State} (h : s.cfg.onIllegal = .stop) :
    execRsvd n s = .fault .illegalCommand := by
  simp [execRsvd, h]

end Sys2Proof.Machine
end

