-- ==== Sys2Proof/Laws/PerInstr.lean ====
section
/-! SUPPORT. One statement for each command as syntax: the two low bits of its command word are its row's `match`
under the mask `0x3` (30_encoding.md R42). -/

namespace Sys2Proof.Laws.OpcodeField

/-- The command word of `i` has the opcode of `i` in its low two bits, at every width. -/
def Statement (i : Instr) : Prop := ∀ W : Nat, opField (encode W i) = i.op

theorem opField_commandWord {W : Nat} (data : Word W) (op : BitVec 2) : opField (commandWord data op) = op := by
  apply BitVec.eq_of_getLsbD_eq
  intro i hi
  simp [opField, commandWord, BitVec.getLsbD_append, hi]

theorem encode (value : Nat) : Statement (.encode value) := fun _ => opField_commandWord _ _

theorem verify (value : Nat) : Statement (.verify value) := fun _ => opField_commandWord _ _

theorem setdiv (newDivisor : Nat) : Statement (.setdiv newDivisor) := fun _ => opField_commandWord _ _

theorem rsvd (data : Nat) : Statement (.rsvd data) := fun _ => opField_commandWord _ _

end Sys2Proof.Laws.OpcodeField
end

