-- ==== Sys2Proof/Tests/Slice0.lean ====
section
/-! SUPPORT. The model's own tests. Every expected value is the spec's: the encodings of 30_encoding.md, and the
vectors of 95_test_vectors.md, whose table is named. Then, for every statement with hypotheses, a witness that meets
them. -/

namespace Sys2Proof.Tests.Slice0

open Sys2Proof Sys2Proof.Machine

/-! ## WellFormed: an operand of W + 1 bits is refused (30_encoding.md R46) -/

theorem test_encode_operand_too_wide : (Instr.encode (2 ^ 64)).wellFormed 64 = false := by decide
theorem test_verify_operand_too_wide : (Instr.verify 256).wellFormed 8 = false := by decide
theorem test_setdiv_operand_too_wide : (Instr.setdiv 256).wellFormed 8 = false := by decide
theorem test_rsvd_operand_too_wide : (Instr.rsvd 256).wellFormed 8 = false := by decide
theorem test_largest_operand_fits : (Instr.setdiv (2 ^ 64 - 1)).wellFormed 64 = true := by decide
theorem test_width_below_eight_refused : (Config.mk 7 .answer).wf = false := by decide

/-! ## Decoding (30_encoding.md R40, R42): `cmd[W+1:2]` is the operand, `cmd[1:0]` the opcode -/

/-- W = 8: data `0b0000_0101`, op `0b00`. -/
theorem test_decode_encode_bits : decode (W := 8) 0b0000010100#10 = .encode 5 := by decide
/-- W = 8: data `0b1011_1011`, op `0b01`. -/
theorem test_decode_verify_bits : decode (W := 8) 0b1011101101#10 = .verify 0xBB := by decide
/-- W = 8: data `0b1000_0001`, op `0b10`: the top and the bottom data bit. -/
theorem test_decode_setdiv_bits : decode (W := 8) 0b1000000110#10 = .setdiv 0x81 := by decide
/-- W = 8: data `0b0000_0111`, op `0b11`. -/
theorem test_decode_rsvd_bits : decode (W := 8) 0b0000011111#10 = .rsvd 7 := by decide
/-- P5: `SETDIV 0x8000000000000001` is the 66-bit word `0x20000000000000006`. -/
theorem test_encode_p5 : encode 64 (.setdiv 0x8000000000000001) = 0x20000000000000006#66 := by decide
/-- V-RSVD: `RSVD 0xFFFFFFFFFFFFFFFF` is `0x3FFFFFFFFFFFFFFFF`. -/
theorem test_encode_rsvd : encode 64 (.rsvd 0xFFFFFFFFFFFFFFFF) = 0x3FFFFFFFFFFFFFFFF#66 := by decide
/-- R40: a word of W + 3 bits is no command word. -/
theorem test_decode_number_too_wide : (decodeNumber 8 1024).toOption = none := by decide
theorem test_decodeTableWord : decodeTableWord 8 0x14 = some (.encode 5) := by decide
/-- R45: `(0x2EC, 0, 0)` and an error answer at W = 8, `{1, 0, 0x00}`. -/
theorem test_response_word :
    (Response.word (W := 64) ⟨0x2EC, false, false⟩).toNat = 0x2EC ∧ (Response.word (W := 8) ⟨0, false, true⟩) = 0x200#10 ∧
    (Response.word (W := 8) ⟨0, true, false⟩) = 0x100#10 := by decide

/-! ## The datapath -/

/-- Table V-NB. -/
theorem test_numBits :
    [0x0#64, 0x1#64, 0x2#64, 0x3#64, 0x7#64, 0x8#64, 0xBB#64, 0xFF#64, 0x100#64, 0x7FFFFFFFFFFFFFFF#64,
      0x8000000000000000#64, 0xFFFFFFFFFFFFFFFF#64].map numBits = [0, 1, 2, 2, 3, 4, 8, 8, 9, 63, 64, 64] := by decide

/-- Table V-RED: remainder and number of passes under `0xBB`. -/
theorem test_reduce :
    [0x0#64, 0x1#64, 0x7F#64, 0x80#64, 0xBA#64, 0xBB#64, 0x176#64, 0x1FF#64, 0x280#64, 0x1500#64].map
      (fun x => (reduce x 0xBB#64, reducePasses x 0xBB#64)) =
    [(0x0#64, 0), (0x1#64, 0), (0x7F#64, 0), (0x3B#64, 1), (0x1#64, 1), (0x0#64, 1), (0x0#64, 1), (0x32#64, 2),
      (0x6C#64, 1), (0x37#64, 3)] := by decide

/-- Table V-ENC, divisor `0xBB`, W = 64, the overflowing rows included. -/
theorem test_codeword_default :
    [0x0#64, 0x1#64, 0x5#64, 0x2A#64, 0xFF#64, 0x1234#64, 0x1FFFFFFFFFFFFFF#64, 0x200000000000000#64,
      0xFFFFFFFFFFFFFFFF#64].map (codeword · 0xBB#64) =
    [0x0#64, 0xBB#64, 0x2EC#64, 0x1537#64, 0x7FC4#64, 0x91A64#64, 0xFFFFFFFFFFFFFFBB#64, 0x0#64,
      0xFFFFFFFFFFFFFFBB#64] := by decide

/-- Tables V-ENC and V-TAMP, other divisors: 1, 2, 3, of 17 bits, and of full width; then W = 8. -/
theorem test_codeword_other :
    codeword 0xFFFFFFFFFFFFFFFF#64 0x1#64 = 0xFFFFFFFFFFFFFFFF#64 ∧ codeword 0x5#64 0x2#64 = 0xA#64 ∧
    codeword 0x2#64 0x3#64 = 0x5#64 ∧ codeword 42#64 0x11021#64 = 0x2A8528#64 ∧
    codeword 0x3#64 0x8000000000000001#64 = 0x8000000000000001#64 ∧
    codeword 0x3#8 0xBB#8 = 0xBB#8 ∧ codeword 0x2#8 0xBB#8 = 0x0#8 ∧ codeword 0x1#8 0xFF#8 = 0xFF#8 := by decide

/-- Table V-VER: the internal remainders of an all-ones word. -/
theorem test_verify_remainders :
    reduce 0xFFFFFFFFFFFFFFFF#64 0xBB#64 = 0x44#64 ∧ reduce 0xFF#8 0xBB#8 = 0x44#8 := by decide

/-- Table V-COR: XOR with `e = 0x35` is detected, integer addition of it is not. -/
theorem test_corruption :
    reduce (0x2EC#64 ^^^ 0x35#64) 0xBB#64 ≠ 0#64 ∧ reduce (0x2EC#64 + 0x35#64) 0xBB#64 = 0#64 := by decide

/-! ## One step of each command -/

/-- The machine with divisor `d` in `DIV` and `DIV_S`, in interface state `i`, and these coming edges. -/
def machine (c : Config) (d : Word c.W) (i : IfState) (edges : List (Edge c.W)) : State :=
  { State.resetAt c with eng := { Engine.reset c.W with div := d, divS := d, ifState := i }, edges := edges }

/-- The reference machine with command word `cmd` in flight under divisor `d`. -/
def busy (d : Word 64) (cmd : Nat) : State :=
  (machine Config.reference d .idle []).placeCommand (BitVec.ofNat 66 cmd)

/-- The same, the reserved opcode answered as the hardware answers it. -/
def answering (d : Word 64) (cmd : Nat) : State :=
  (machine Config.answering d .idle []).placeCommand (BitVec.ofNat 66 cmd)

/-- `DIV`, the response registers and the interface state of a next state. -/
def seen : Host.Outcome State Fault Refusal → Option (Nat × Nat × Bool × Bool × IfState)
  | .next t => some (t.eng.div.toNat, t.eng.rspData.toNat, t.eng.rspFlag, t.eng.rspErr, t.eng.ifState)
  | .fault _ => none
  | .refused _ => none

/-- P1 step 2. -/
theorem test_step_encode : seen (step (busy 0xBB 0x14)) = some (0xBB, 0x2EC, false, false, .resp) := by decide
/-- P1 step 6. -/
theorem test_step_encode_42 : seen (step (busy 0xBB 0xA8)) = some (0xBB, 0x1537, false, false, .resp) := by decide
/-- P1 step 3. -/
theorem test_step_verify : seen (step (busy 0xBB 0xBB1)) = some (0xBB, 0, true, false, .resp) := by decide
/-- P1 step 5. -/
theorem test_step_verify_wrong : seen (step (busy 0xBB 0xBB5)) = some (0xBB, 0, false, false, .resp) := by decide
/-- P2 step 4. -/
theorem test_step_setdiv : seen (step (busy 0xBB 0xE)) = some (3, 0, false, false, .resp) := by decide
/-- P2 step 2. -/
theorem test_step_setdiv_zero : seen (step (busy 0xBB 0x2)) = some (0xBB, 0, false, false, .resp) := by decide
/-- P3 step 5, the hardware's behaviour. -/
theorem test_step_rsvd : seen (step (answering 1 0x1F)) = some (1, 0, false, true, .resp) := by decide
/-- P3, "In a model, a program containing `RSVD` ends in the fault `IllegalCommand` at that step instead". -/
theorem test_step_rsvd_stops : step (State.reset.withFetchWord 66 0x1F) = .fault .illegalCommand := by rfl
/-- P1 step 2, as the first step after reset. -/
theorem test_step_after_reset :
    seen (step (State.reset.withFetchWord 8 0x14)) = some (0xBB, 0x2EC, false, false, .resp) := by decide
/-- R26: a command before the first reset. -/
theorem test_step_before_reset :
    step { State.powerUp Config.reference (Engine.reset 64) with edges := [Edge.present 64 (.encode 1)] } =
      .fault .beforeFirstReset := by rfl
/-- U3: `REDUCE(x, 0)`. -/
theorem test_zero_divisor : step (busy 0 0x14) = .fault .zeroDivisor := by rfl
/-- V-RST: reset with `DIV = 0x3` and `ENCODE 2` in flight. -/
theorem test_step_reset :
    (match step { busy 3 0x8 with edges := [Edge.reset] } with
      | .next t => decide (t.eng.div.toNat = 0xBB) && decide (t.eng.ifState = .idle) && t.delivered.isEmpty
      | .fault _ => false
      | .refused _ => false) = true := by decide

/-! ## The text form (30_encoding.md R46) -/

theorem test_text_command :
    parseLine 64 "ENCODE 0x5 ; a comment".toList =
      .ok (some { action := .command (.encode 5), response := none }) := by decide
theorem test_text_response :
    parseLine 64 "VERIFY 0b101 -> (0x0, 1, 0)".toList =
      .ok (some { action := .command (.verify 5), response := some (0, 1, 0) }) := by decide
theorem test_text_reset : parseLine 64 "RESET".toList = .ok (some { action := .reset, response := none }) := by decide
theorem test_text_out_of_range : parseLine 8 "SETDIV 256".toList = .error .outOfRange := by decide
theorem test_text_comment_only : parseLine 8 "  ; nothing".toList = .ok none := by decide

/-! ## Witnesses: for every statement with hypotheses, inputs that meet them all -/

theorem witness_LowTwoBitsSelectTheCommand :
    (0x3FC#10).toNat % 4 = 0 ∧ (0x3FD#10).toNat % 4 = 1 ∧ (0x3FE#10).toNat % 4 = 2 ∧ (0x3FF#10).toNat % 4 = 3 := by
  decide

theorem witness_DecodeAndEncodeAreInverse :
    (Instr.encode (2 ^ 64 - 1)).wellFormed 64 = true ∧ (Instr.rsvd 0).wellFormed 8 = true := by decide

/-- Both clauses, at the two sides of the boundary at W = 8. -/
theorem witness_TextFormRejectsLiteralsOutOfRange :
    mnemonicInstr "SETDIV".toList = some Instr.setdiv ∧
    literalValue "255".toList = some 255 ∧ 255 < 2 ^ 8 ∧ literalValue "0x100".toList = some 256 ∧ 2 ^ 8 ≤ 256 :=
  ⟨rfl, by decide, by decide, by decide, by decide⟩

theorem witness_NumBitsIsTheBitLength :
    (0x8000000000000000#64 ≠ 0) ∧ (0 < 8 ∧ 7 < 8) ∧ (0 ≤ 8 ∧ 8 ≤ 8) ∧ 4 ≤ 4 := by decide

theorem witness_ReduceIsTheAlignAndXorLoop : (1#8 ≠ 0) ∧ (0xFF#8 ≠ 0) := by decide

theorem witness_ReductionPassClearsTheTopBit :
    (0xBB#64 ≠ 0) ∧ numBits 0xBB#64 ≤ numBits 0xBB#64 ∧ numBits 0xBB#64 ≤ numBits 0x8000000000000000#64 := by decide

theorem witness_ReductionPassesAreBounded : (1#64 ≠ 0) ∧ (0x8000000000000001#64 ≠ 0) := by decide

theorem witness_ReduceIsThePolynomialRemainder : (1#64 ≠ 0) ∧ (0xBB#64 ≠ 0) := by decide

theorem witness_ReduceIsLinearOverXor : (0xBB#64 ≠ 0) ∧ numBits 0x7F#64 < numBits 0xBB#64 := by decide

theorem witness_WideningTruncatesToTheWord :
    (1#8 ≠ 0) ∧ (0xFF#8 ≠ 0) ∧ ∃ t, exec (.encode (2 ^ 64 - 1)) (busy 0xBB 0x14) = .next t :=
  ⟨by decide, by decide, _, rfl⟩

theorem witness_EncodeAnswersTheCodeword :
    (busy 0xBB 0x14).eng.divS ≠ 0 ∧ (0x80#8 ≠ 0) ∧ (1#8 = 1) ∧ numBits 0x80#8 = 8 := by decide

theorem witness_VerifyAnswersWhetherTheRemainderIsZero :
    (busy 0xBB 0xBB1).eng.divS ≠ 0 ∧ (0x7F#64 ≠ 0) ∧ (0x7F#64).toNat < 2 ^ (numBits 0xBB#64 - 1) ∧ (1#8 = 1) := by
  decide

theorem witness_RsvdAnswersTheErrorBit : (answering 1 0x1F).cfg.onIllegal = .answer := by decide

theorem witness_RsvdStopsARunWhereAsked : (busy 1 0x1F).cfg.onIllegal = .stop := by decide

theorem witness_ReductionByZeroStops : (busy 0 0x14).eng.divS = 0 := by decide

theorem witness_OperandsTooWideAreRefused : 2 ^ State.reset.cfg.W ≤ 2 ^ 64 := by decide

/-- For a constructor of each kind, at the largest operand. -/
theorem witness_EveryCommandCompletesByItsRule :
    (Instr.encode (2 ^ 64 - 1)).wellFormed (busy 0xBB 0x14).cfg.W = true ∧
    (busy 0xBB 0x14).eng.divS ≠ 0 ∧ completes (busy 0xBB 0x14).cfg (.encode (2 ^ 64 - 1)) = true ∧
    (Instr.rsvd (2 ^ 64 - 1)).wellFormed (answering 0xBB 0x1F).cfg.W = true ∧
    (answering 0xBB 0x1F).eng.divS ≠ 0 ∧ completes (answering 0xBB 0x1F).cfg (.rsvd (2 ^ 64 - 1)) = true := by decide

theorem witness_EncodeOneReadsBackTheDivisor : (busy 0x8000000000000001 0x4).eng.divS ≠ 0 := by decide

theorem witness_CodewordHasTheRemainderInItsLowBits :
    (0xBB#64 ≠ 0) ∧ 6 < numBits 0xBB#64 - 1 ∧ numBits 0xBB#64 - 1 ≤ 7 := by decide

/-- The VERIFY clause, and the clause on shifts at the largest shift that does not overflow. -/
theorem witness_VerifyAcceptsExactlyTheMultiples :
    (∃ t, exec (.verify (0x2EC#64).toNat) (busy 0xBB 0xBB1) = .next t) ∧
    (0xBB#64 ≠ 0) ∧ reduce 0x176#64 0xBB#64 = 0 ∧ reduce 0x2EC#64 0xBB#64 = 0 ∧ numBits 0xBB#64 + 56 ≤ 64 :=
  ⟨⟨_, rfl⟩, by decide, by decide, by decide, by decide⟩

theorem witness_DivisorOneAcceptsEverything : 1 ≤ (busy 1 0xA8).cfg.W ∧ (busy 1 0xA8).eng.divS = 1 := by decide

theorem witness_EncodeThenVerifySucceeds :
    (busy 0xBB 0x14).eng.divS ≠ 0 ∧ (busy 0xBB 0xBB1).cfg = (busy 0xBB 0x14).cfg ∧
    (busy 0xBB 0xBB1).eng.divS.toNat = (busy 0xBB 0x14).eng.divS.toNat := by decide

theorem witness_ErrorsAreDetectedUnlessMultiples :
    (busy 0xBB 0x14).eng.divS ≠ 0 ∧ (0x7F#64 ≠ 0) ∧ (0x7F#64).toNat < 2 ^ (numBits (busy 0xBB 0x14).eng.divS - 1) := by
  decide

theorem witness_FlippedLowBitIsDetected :
    8 ≤ (busy 2 0xA8).cfg.W ∧ (busy 2 0xA8).eng.divS ≠ 0 ∧ (busy 1 0xA8).eng.divS ≠ 0 := by decide

theorem witness_DividingCommandsFrame :
    (∃ t, exec (.encode 5) (busy 0xBB 0x14) = .next t) ∧ (∃ t, exec (.verify 5) (busy 0xBB 0x14) = .next t) :=
  ⟨⟨_, rfl⟩, ⟨_, rfl⟩⟩

theorem witness_ControlCommandsFrame :
    (∃ t, exec (.setdiv 3) (busy 0xBB 0xE) = .next t) ∧ (∃ t, exec (.rsvd 7) (answering 0xBB 0x1F) = .next t) :=
  ⟨⟨_, rfl⟩, ⟨_, rfl⟩⟩

theorem witness_StepRunsTheLatchedCommand :
    (busy 0xBB 0x14).live = true ∧ (busy 0xBB 0x14).eng.ifState = .busy ∧ (busy 0xBB 0x14).edge.rst = false ∧
    (busy 0xBB 0x14).edge.stall = false := by decide

/-- The reference machine in `IDLE` with `ENCODE 5` presented at the coming edge. -/
def presented : State := machine Config.reference 0xBB .idle [Edge.present 64 (.encode 5)]

theorem witness_IdleAcceptsThePresentedCommand :
    presented.live = true ∧ presented.eng.ifState = .idle ∧ presented.edge.rst = false ∧
    presented.edge.cmdValid = true := by decide

/-- Both clauses: a quiet `IDLE`, and a stalled `BUSY`. -/
theorem witness_WaitingEdgesChangeNoRegister :
    (State.reset.live = true ∧ State.reset.edge.rst = false ∧ State.reset.eng.ifState = .idle ∧
      State.reset.edge.cmdValid = false) ∧
    (machine Config.reference 3 .busy [Edge.stalled]).live = true ∧
    (machine Config.reference 3 .busy [Edge.stalled]).edge.rst = false ∧
    (machine Config.reference 3 .busy [Edge.stalled]).eng.ifState = .busy ∧
    (machine Config.reference 3 .busy [Edge.stalled]).edge.stall = true := by decide

/-- Both clauses: a response not taken, and one taken. -/
theorem witness_ResponseIsHeldUntilTaken :
    ((machine Config.reference 3 .resp []).live = true ∧ (machine Config.reference 3 .resp []).eng.ifState = .resp ∧
      (machine Config.reference 3 .resp []).edge.rst = false ∧
      (machine Config.reference 3 .resp []).edge.rspReady = false) ∧
    (machine Config.reference 3 .resp [Edge.take]).live = true ∧
    (machine Config.reference 3 .resp [Edge.take]).eng.ifState = .resp ∧
    (machine Config.reference 3 .resp [Edge.take]).edge.rst = false ∧
    (machine Config.reference 3 .resp [Edge.take]).edge.rspReady = true := by decide

/-- The three clauses: two edges that differ where the state does not look. -/
theorem witness_InputsCountOnlyWhereSampled :
    ((machine Config.reference 3 .busy []).live = true ∧
      (Edge.take : Edge 64).rst = (Edge.present 64 (.encode 5)).rst ∧
      (machine Config.reference 3 .busy []).eng.ifState = .busy ∧
      (Edge.take : Edge 64).stall = (Edge.present 64 (.encode 5)).stall) ∧
    ((machine Config.reference 3 .resp []).eng.ifState = .resp ∧
      (Edge.quiet : Edge 64).rst = (Edge.present 64 (.encode 5)).rst ∧
      (Edge.quiet : Edge 64).rspReady = (Edge.present 64 (.encode 5)).rspReady) ∧
    (presented.eng.ifState = .idle ∧ (Edge.quiet : Edge 64).rst = (Edge.take : Edge 64).rst ∧
      (Edge.quiet : Edge 64).cmdValid = (Edge.take : Edge 64).cmdValid) := by decide

/-- The reference machine computing `ENCODE 5` when a reset comes. -/
def resetting : State := { busy 3 0x14 with edges := [Edge.reset] }

theorem witness_ResetInstallsTheDefaultDivisor : resetting.edge.rst = true := by decide

theorem witness_ResetForgetsTheCommandInFlight : (Edge.reset : Edge 64).rst = true := by decide

/-- Both clauses. -/
theorem witness_CommandsBeforeTheFirstResetStop :
    ({ presented with live := false } : State).live = false ∧ ({ presented with live := false } : State).edge.rst = false ∧
    ({ presented with live := false } : State).edge.cmdValid = true ∧
    (State.powerUp Config.reference (Engine.reset 64)).live = false ∧
    (State.powerUp Config.reference (Engine.reset 64)).edge.rst = false ∧
    (State.powerUp Config.reference (Engine.reset 64)).edge.cmdValid = false := by decide

theorem witness_DefaultDivisorIsBB :
    8 ≤ (Config.mk 8 .answer).W ∧ 8 ≤ resetting.cfg.W ∧ resetting.edge.rst = true ∧ ∃ t, step resetting = .next t :=
  ⟨by decide, by decide, by decide, _, rfl⟩

theorem witness_DefaultDivisorPolynomial : 8 ≤ 8 := by decide

/-- The three ways: `DIV` kept, reset, and written by SETDIV. -/
theorem witness_OnlySetdivAndResetChangeTheDivisor :
    (∃ t, step presented = .next t) ∧ (∃ t, step resetting = .next t) ∧ (∃ t, step (busy 0xBB 0xE) = .next t) :=
  ⟨⟨_, rfl⟩, ⟨_, rfl⟩, ⟨_, rfl⟩⟩

theorem witness_ResponsesAreDeliveredOneByOne :
    (∃ t, step presented = .next t) ∧ ∃ t, step (machine Config.reference 3 .resp [Edge.take]) = .next t :=
  ⟨⟨_, rfl⟩, ⟨_, rfl⟩⟩

theorem witness_InvariantHoldsAfterReset : (Config.mk 8 .stop).wf = true ∧ Config.reference.wf = true := by decide

/-- The invariant holds while a command is computed, in either configuration. -/
theorem placed_inv (t : IllegalTreatment) (cmd : BitVec 66) :
    Inv ((machine ⟨64, t⟩ 0xBB .idle []).placeCommand cmd) where
  width := by change 8 ≤ 64; decide
  divisor := fun _ => by change 0xBB#64 ≠ 0; decide
  snapshot := fun _ _ => rfl
  answered := fun _ h => by cases h
  log := fun r h => by cases h

/-- The invariant holds while `ENCODE 5` is computed. -/
theorem busy_inv : Inv (busy 0xBB 0x14) := placed_inv .stop _

/-- The invariant holds in `IDLE`, in either configuration. -/
theorem idle_inv (t : IllegalTreatment) (edges : List (Edge 64)) : Inv (machine ⟨64, t⟩ 0xBB .idle edges) where
  width := by change 8 ≤ 64; decide
  divisor := fun _ => by change 0xBB#64 ≠ 0; decide
  snapshot := fun _ h => by cases h
  answered := fun _ h => by cases h
  log := fun r h => by cases h

theorem witness_StepKeepsTheInvariant : Inv (busy 0xBB 0x14) ∧ ∃ t, step (busy 0xBB 0x14) = .next t :=
  ⟨busy_inv, _, rfl⟩

theorem witness_DivisorBitLengthIsInRange : Inv (busy 0xBB 0x14) ∧ (busy 0xBB 0x14).live = true := ⟨busy_inv, rfl⟩

theorem witness_AnsweringEngineNeverStops :
    Inv (answering 0xBB 0x1F) ∧ (answering 0xBB 0x1F).live = true ∧ (answering 0xBB 0x1F).cfg.onIllegal = .answer :=
  ⟨placed_inv .answer _, rfl, rfl⟩

/-- The reference machine computing `ENCODE 5`, which needs one more cycle: `xs = [Edge.stalled]`. -/
def stalling : State := { busy 0xBB 0x14 with edges := [Edge.stalled, Edge.quiet] }

theorem stalling_inv : Inv stalling := ⟨busy_inv.width, busy_inv.divisor, busy_inv.snapshot, busy_inv.answered, busy_inv.log⟩

theorem witness_AcceptedCommandCompletes :
    Inv stalling ∧ stalling.live = true ∧ completes stalling.cfg (decode stalling.eng.latched) = true ∧ stalling.eng.ifState = .busy ∧
    stalling.edges = [Edge.stalled] ++ Edge.quiet :: [] ∧
    (∀ x ∈ [(Edge.stalled : Edge 64)], x.rst = false ∧ x.stall = true) ∧
    (Edge.quiet : Edge 64).rst = false ∧ (Edge.quiet : Edge 64).stall = false :=
  ⟨stalling_inv, rfl, by decide, rfl, rfl, by decide, rfl, rfl⟩

/-- A SETDIV after waits of every kind, then an ENCODE under the new divisor. -/
def twoExchanges : List Exchange :=
  [{ instr := .setdiv 3, idles := 1, stalls := 2, waits := 1 }, { instr := .encode 2, idles := 0, stalls := 0, waits := 0 }]

/-- The reference machine in `IDLE` whose host performs the two exchanges. -/
def exchanging : State := machine Config.reference 0xBB .idle (twoExchanges.flatMap (Exchange.edges 64) ++ [])

theorem witness_CommandSequencesEqualTheSequentialReading :
    Inv exchanging ∧ exchanging.live = true ∧ exchanging.eng.ifState = .idle ∧
    (∀ x ∈ twoExchanges, x.instr.wellFormed exchanging.cfg.W = true ∧ completes exchanging.cfg x.instr = true) ∧
    exchanging.edges = twoExchanges.flatMap (Exchange.edges exchanging.cfg.W) ++ [] :=
  ⟨idle_inv .stop _, rfl, rfl, by decide, rfl⟩

theorem witness_StoppingRunsAreSafe :
    Inv presented ∧ presented.live = true ∧ presented.cfg.onIllegal = .stop ∧ presented.eng.ifState = .idle ∧
    (∀ r ∈ presented.delivered, r.err = false) ∧
    ∃ t, Host.Core.run Sys2Proof.core 1 presented = .next t :=
  ⟨idle_inv .stop _, rfl, rfl, rfl, fun _ h => absurd h List.not_mem_nil, _, rfl⟩

/-- The first clause at the shortest word and at a whole one; the second where the step stops and where it goes on. -/
theorem witness_OnlyTheReservedOpcodeStopsAResetEngine :
    (2 ≤ 2 ∧ 3 % 4 = 3) ∧ (2 ≤ 66 ∧ 0x1F % 4 = 3) ∧
    (Inv (busy 0xBB 0x1F) ∧ (busy 0xBB 0x1F).live = true ∧ step (busy 0xBB 0x1F) = .fault .illegalCommand) ∧
    (Inv (busy 0xBB 0x14) ∧ (busy 0xBB 0x14).live = true ∧ ∃ t, step (busy 0xBB 0x14) = .next t) :=
  ⟨by decide, by decide, ⟨placed_inv .stop _, rfl, rfl⟩, ⟨busy_inv, rfl, _, rfl⟩⟩

end Sys2Proof.Tests.Slice0
end

section
/-! PROOF. The divisor after reset (spec/10_state.md R18): its value, then its bit length from that value. -/

namespace Sys2Proof.Machine

variable {W : Nat}

/-- The bit length read off the number (R48): a word from `2 ^ n` up to `2 ^ (n + 1)` has its top set bit at `n`. -/
theorem numBits_eq_succ_of_toNat {v : Word W} {n : Nat} (hlo : 2 ^ n ≤ v.toNat) (hhi : v.toNat < 2 ^ (n + 1)) :
    numBits v = n + 1 := by
  apply numBits_eq_succ
  · rw [← BitVec.testBit_toNat]
    exact Nat.testBit_of_two_pow_le_and_two_pow_add_one_gt hlo hhi
  · intro i hi
    rw [← BitVec.testBit_toNat]
    exact Nat.testBit_lt_two_pow (hhi.trans_le (Nat.pow_le_pow_right (by decide) hi))

/-- `0xBB` fits into 8 bits, so a word of 8 bits or more holds it whole. -/
theorem defaultDivisor_toNat (hW : 8 ≤ W) : (Config.defaultDivisor W).toNat = 187 := by
  have hfit : 187 < 2 ^ W := lt_of_lt_of_le (by decide) (Nat.pow_le_pow_right (by decide) hW)
  exact Nat.mod_eq_of_lt hfit

theorem numBits_defaultDivisor (hW : 8 ≤ W) : numBits (Config.defaultDivisor W) = Config.defaultDivisorBits := by
  apply numBits_eq_succ_of_toNat (n := 7)
  · rw [defaultDivisor_toNat hW]; decide
  · rw [defaultDivisor_toNat hW]; decide

@[simp] theorem State.resetAt_div (c : Config) : (State.resetAt c).eng.div = Config.defaultDivisor c.W := rfl

/-- Settles O40: the reset state and every resetting step hold the default divisor, so both parts are its value and its
bit length at the width in question. -/
theorem defaultDivisorIsBB : Obligations.DefaultDivisorIsBB := by
  constructor
  · intro c hW
    rw [State.resetAt_div]
    exact ⟨defaultDivisor_toNat hW, numBits_defaultDivisor hW⟩
  · intro s t hW hr h
    obtain rfl : s.dropEdge.applyReset = t := Host.Outcome.next.inj ((step_of_rst hr).symm.trans h)
    exact ⟨defaultDivisor_toNat hW, numBits_defaultDivisor hW⟩

end Sys2Proof.Machine
end

section
/-! PROOF. The fields of the command word as numbers, and the row they select (spec/30_encoding.md R40, R42). -/

namespace Sys2Proof

variable {W : Nat}

/-- R40: `cmd = data * 4 + op`. -/
theorem commandWord_toNat (data : Word W) (op : BitVec 2) :
    (commandWord data op).toNat = data.toNat * 4 + op.toNat := by
  have hconcat : (commandWord data op).toNat = data.toNat <<< 2 ||| op.toNat := BitVec.toNat_append data op
  rw [hconcat, ← Nat.shiftLeft_add_eq_or_of_lt op.isLt, Nat.shiftLeft_eq]

/-- R40: `op` is `cmd[1:0]`. -/
@[simp] theorem opField_toNat (cmd : BitVec (W + 2)) : (opField cmd).toNat = cmd.toNat % 4 :=
  BitVec.extractLsb'_toNat 0 2 cmd

/-- R40: `data` is `cmd[W+1:2]`; a command word has no bit above it that the field would cut off. -/
@[simp] theorem dataField_toNat (cmd : BitVec (W + 2)) : (dataField cmd).toNat = cmd.toNat / 4 := by
  have hfit : cmd.toNat / 4 < 2 ^ W :=
    Nat.div_lt_of_lt_mul (by simpa [Nat.pow_add, Nat.mul_comm] using cmd.isLt)
  rw [dataField, BitVec.extractLsb'_toNat, Nat.shiftRight_eq_div_pow]
  exact Nat.mod_eq_of_lt hfit

theorem dataField_commandWord (data : Word W) (op : BitVec 2) : dataField (commandWord data op) = data := by
  have hop : op.toNat < 4 := op.isLt
  apply BitVec.eq_of_toNat_eq
  rw [dataField_toNat, commandWord_toNat]
  omega

/-- R42: two low bits that are `op` select the row of `op`, whatever the data bits are. -/
theorem decode_of_mod_four {cmd : BitVec (W + 2)} {op : BitVec 2} (h : cmd.toNat % 4 = op.toNat) :
    decode cmd = decodeFields op (cmd.toNat / 4) := by
  have hop : opField cmd = op := BitVec.eq_of_toNat_eq ((opField_toNat cmd).trans h)
  rw [decode, hop, dataField_toNat]

/-- Settles O3: each clause is `decode_of_mod_four` at one row of the table. -/
theorem lowTwoBitsSelectTheCommand : Obligations.LowTwoBitsSelectTheCommand := fun _ _ =>
  ⟨decode_of_mod_four (op := 0b00#2), decode_of_mod_four (op := 0b01#2), decode_of_mod_four (op := 0b10#2),
    decode_of_mod_four (op := 0b11#2)⟩

/-- Settles O2: the concatenation as a sum, and each field read back from that sum. -/
theorem commandWordIsDataTimesFourPlusOp : Obligations.CommandWordIsDataTimesFourPlusOp := fun _ data op =>
  ⟨commandWord_toNat data op, Laws.OpcodeField.opField_commandWord data op, dataField_commandWord data op⟩

end Sys2Proof
end

section
/-! PROOF. The fields of the response word (spec/30_encoding.md R45). -/

namespace Sys2Proof.Machine

variable {W : Nat}

/-- R45: bit `i` of the response word: the data up to bit `W`, the flag there, the error bit above it. -/
theorem Response.word_getLsbD (r : Response W) (i : Nat) :
    r.word.getLsbD i =
      if i < 1 + W then if i < W then r.data.getLsbD i else (BitVec.ofBool r.flag).getLsbD (i - W)
      else (BitVec.ofBool r.err).getLsbD (i - (1 + W)) := by
  rw [Response.word, BitVec.getLsbD_cast, BitVec.getLsbD_append, BitVec.getLsbD_append]

theorem Response.word_data (r : Response W) : r.word.extractLsb' 0 W = r.data := by
  apply BitVec.eq_of_getLsbD_eq
  intro i hi
  have hi' : i < 1 + W := by omega
  rw [BitVec.getLsbD_extractLsb', Nat.zero_add, r.word_getLsbD, if_pos hi', if_pos hi, decide_eq_true hi,
    Bool.true_and]

theorem Response.word_flag (r : Response W) : r.word.getLsbD W = r.flag := by
  rw [r.word_getLsbD, if_pos (by omega), if_neg (by omega), Nat.sub_self]
  simp

theorem Response.word_err (r : Response W) : r.word.getLsbD (W + 1) = r.err := by
  rw [r.word_getLsbD, if_neg (by omega), Nat.add_comm W 1, Nat.sub_self]
  simp

/-- Settles O5: one lemma for each field of the concatenation. -/
theorem responseWordFields : Obligations.ResponseWordFields := fun _ r => ⟨r.word_data, r.word_flag, r.word_err⟩

end Sys2Proof.Machine
end

section
/-! PROOF. `NUMBITS` as a fact about the number: the bit length is at most `k` exactly below `2 ^ k`
(spec/40_divider.md R48, R49). -/

namespace Sys2Proof.Machine

variable {W : Nat}

/-- R48 as a bound on the number: every later fact about a bit length and a power of two is an instance. -/
theorem numBits_le_iff_toNat_lt {v : Word W} {k : Nat} : numBits v ≤ k ↔ v.toNat < 2 ^ k := by
  rw [numBits_le_iff]
  constructor
  · intro h
    exact Nat.lt_pow_two_of_testBit v.toNat fun i hi => (BitVec.testBit_toNat v).trans (h i hi)
  · intro h i hi
    rw [← BitVec.testBit_toNat]
    exact Nat.testBit_lt_two_pow (h.trans_le (Nat.pow_le_pow_right (by decide) hi))

theorem numBits_eq_log2_add_one {v : Word W} (hv : v ≠ 0) : numBits v = Nat.log2 v.toNat + 1 := by
  have hn : v.toNat ≠ 0 := fun e => hv (BitVec.eq_of_toNat_eq e)
  exact numBits_eq_succ_of_toNat (Nat.log2_self_le hn) Nat.lt_log2_self

/-- R49: exact at a power of two. -/
theorem numBits_ofNat_two_pow {k : Nat} (hk : k < W) : numBits (BitVec.ofNat W (2 ^ k)) = k + 1 := by
  have hval : (BitVec.ofNat W (2 ^ k)).toNat = 2 ^ k :=
    Nat.mod_eq_of_lt (Nat.pow_lt_pow_right (by decide) hk)
  apply numBits_eq_succ_of_toNat
  · rw [hval]
  · rw [hval]
    exact Nat.pow_lt_pow_succ (by decide)

/-- R49: exact just below a power of two. -/
theorem numBits_ofNat_two_pow_sub_one {k : Nat} (hk : k ≤ W) : numBits (BitVec.ofNat W (2 ^ k - 1)) = k := by
  have hpos := Nat.two_pow_pos k
  have hfit : 2 ^ k ≤ 2 ^ W := Nat.pow_le_pow_right (by decide) hk
  have hval : (BitVec.ofNat W (2 ^ k - 1)).toNat = 2 ^ k - 1 := Nat.mod_eq_of_lt (by omega)
  apply eq_of_forall_ge_iff
  intro j
  rw [numBits_le_iff_toNat_lt, hval, ← Nat.pow_le_pow_iff_right (a := 2) (by decide)]
  omega

/-- Settles O7: the scan's bounds and the logarithm for every word; the four samples are `2 ^ 0 - 1`, `2 ^ 0`,
`2 ^ 3 - 1` and `2 ^ 3`. -/
theorem numBitsIsTheBitLength : Obligations.NumBitsIsTheBitLength := by
  refine ⟨fun W v => ⟨numBits_le v, numBits_eq_zero_iff.2, fun hv => ⟨numBits_eq_log2_add_one hv, ?_, ?_⟩⟩,
    fun _ _ => numBits_ofNat_two_pow, fun _ _ => numBits_ofNat_two_pow_sub_one, fun W hW => ?_⟩
  · exact getLsbD_numBits_sub_one (numBits_pos hv).ne'
  · exact fun _ => getLsbD_eq_false_of_numBits_le
  · exact ⟨numBits_ofNat_two_pow_sub_one (k := 0) (by omega), numBits_ofNat_two_pow (k := 0) (by omega),
      numBits_ofNat_two_pow_sub_one (k := 3) (by omega), numBits_ofNat_two_pow (k := 3) (by omega)⟩

end Sys2Proof.Machine
end

section
/-! PROOF. `REDUCE` freed of its fuel: the loop's own equation, and where it ends (spec/40_divider.md R50). -/

namespace Sys2Proof.Machine

variable {W : Nat} {x d : Word W}

/-- The loop does nothing to a word shorter than the divisor, whatever fuel is left. -/
theorem reduceLoop_of_lt (h : numBits x < numBits d) (fuel : Nat) : reduceLoop d fuel x = x := by
  cases fuel with
  | zero => rfl
  | succ fuel => rw [reduceLoop, if_neg (Nat.not_le.2 h)]

/-- Fuel does not show: as much as the word is long gives the same remainder as `W`. -/
theorem reduceLoop_eq_reduce (hd : d ≠ 0) : ∀ fuel, numBits x ≤ fuel → reduceLoop d fuel x = reduce x d := by
  have hp := numBits_pos hd
  refine reduce_induction hd (P := fun x r => ∀ fuel, numBits x ≤ fuel → reduceLoop d fuel x = r) ?_ ?_ x
  · exact fun x h fuel _ => reduceLoop_of_lt h fuel
  · intro x r h ih fuel hf
    have hshorter := numBits_reducePass_lt hd h
    obtain ⟨n, rfl⟩ : ∃ n, fuel = n + 1 := ⟨fuel - 1, by omega⟩
    rw [reduceLoop, if_pos h]
    exact ih n (by omega)

theorem reduce_of_lt (h : numBits x < numBits d) : reduce x d = x := reduceLoop_of_lt h W

/-- A word as long as the divisor, or longer, has the remainder of what one pass leaves. -/
theorem reduce_of_le (hd : d ≠ 0) (h : numBits d ≤ numBits x) : reduce x d = reduce (reducePass d x) d := by
  have hshorter := numBits_reducePass_lt hd h
  rw [← reduceLoop_eq_reduce hd (numBits x) le_rfl]
  obtain ⟨n, hn⟩ : ∃ n, numBits x = n + 1 := ⟨numBits x - 1, by omega⟩
  rw [hn, reduceLoop, if_pos h]
  exact reduceLoop_eq_reduce hd n (by omega)

/-- R50: "The remaining `crc` (bit length strictly less than `divisorBits`) is the remainder." -/
theorem numBits_reduce_lt (hd : d ≠ 0) (x : Word W) : numBits (reduce x d) < numBits d :=
  reduce_induction hd (P := fun _ r => numBits r < numBits d) (fun _ h => h) (fun _ _ _ ih => ih) x

/-- Settles O8: the equation case by case on the loop's test; its XOR branch is `reducePass` written out. -/
theorem reduceIsTheAlignAndXorLoop : Obligations.ReduceIsTheAlignAndXorLoop := by
  intro W x d hd
  refine ⟨?_, numBits_reduce_lt hd x⟩
  split
  case isTrue h => exact reduce_of_le hd h
  case isFalse h => exact reduce_of_lt (Nat.lt_of_not_le h)

end Sys2Proof.Machine
end

section
/-! PROOF. ENCODE's widening as a truncated product (spec/40_divider.md R53). -/

namespace Sys2Proof.Machine

variable {W : Nat} {d : Word W}

theorem widen_toNat (v d : Word W) : (widen v d).toNat = v.toNat * 2 ^ (numBits d - 1) % 2 ^ W := by
  rw [widen, BitVec.toNat_shiftLeft, Nat.shiftLeft_eq]

/-- The word's range as the bits that widening keeps times the factor it multiplies by. -/
theorem two_pow_kept_mul_factor (hd : d ≠ 0) : 2 ^ (W - numBits d + 1) * 2 ^ (numBits d - 1) = 2 ^ W := by
  have hp := numBits_pos hd
  have hw := numBits_le d
  rw [← Nat.pow_add]
  congr 1
  omega

/-- The bits of the value above the kept ones are shifted out. -/
theorem widen_eq_widen_kept (hd : d ≠ 0) (v : Word W) :
    widen v d = widen (BitVec.ofNat W (v.toNat % 2 ^ (W - numBits d + 1))) d := by
  have hval : (BitVec.ofNat W (v.toNat % 2 ^ (W - numBits d + 1))).toNat = v.toNat % 2 ^ (W - numBits d + 1) :=
    Nat.mod_eq_of_lt ((Nat.mod_le _ _).trans_lt v.isLt)
  apply BitVec.eq_of_toNat_eq
  rw [widen_toNat, widen_toNat, hval, ← two_pow_kept_mul_factor hd, Nat.mul_mod_mul_right, Nat.mul_mod_mul_right,
    Nat.mod_mod]

/-- Widening is lossless exactly when the value fits into the kept bits. -/
theorem widen_toNat_eq_mul_iff (hd : d ≠ 0) (v : Word W) :
    (widen v d).toNat = v.toNat * 2 ^ (numBits d - 1) ↔ numBits v + numBits d - 1 ≤ W := by
  have hp := numBits_pos hd
  have hw := numBits_le d
  calc (widen v d).toNat = v.toNat * 2 ^ (numBits d - 1)
      ↔ v.toNat * 2 ^ (numBits d - 1) < 2 ^ W := by
        rw [widen_toNat, Nat.mod_eq_iff_lt (Nat.two_pow_pos W).ne']
    _ ↔ v.toNat < 2 ^ (W - numBits d + 1) := by
        rw [← two_pow_kept_mul_factor hd, Nat.mul_lt_mul_right (Nat.two_pow_pos _)]
    _ ↔ numBits v ≤ W - numBits d + 1 := numBits_le_iff_toNat_lt.symm
    _ ↔ numBits v + numBits d - 1 ≤ W := by omega

/-- Settles O13: the product, the bits it keeps, when it loses none, and the response bits of any ENCODE that
answers. -/
theorem wideningTruncatesToTheWord : Obligations.WideningTruncatesToTheWord := by
  constructor
  · intro W v d hd
    exact ⟨widen_toNat v d, widen_eq_widen_kept hd v, widen_toNat_eq_mul_iff hd v⟩
  · intro s t value h
    obtain ⟨-, -, rfl⟩ := execEncode_next h
    exact ⟨rfl, rfl⟩

end Sys2Proof.Machine
end

section
/-! PROOF. What a resetting edge leaves in the registers whose value the spec gives (spec/70_reset_and_hazards.md
R79). -/

namespace Sys2Proof.Machine

variable {W : Nat}

/-- `0xBB` at every width: a word shorter than its 8 bits keeps the low ones. -/
theorem defaultDivisor_toNat_eq_mod (W : Nat) : (Config.defaultDivisor W).toNat = 0b10111011 % 2 ^ W :=
  BitVec.toNat_ofNat 0b10111011 W

/-- R79: the interface is in `IDLE`, so no response is valid. -/
@[simp] theorem Engine.afterReset_rspValid (n : Nat) : (Engine.afterReset W n).rspValid = false := rfl

/-- Settles O37: reset has priority over every other input (`step_of_rst`), and the registers it leaves are those of
`Engine.afterReset`. -/
theorem resetInstallsTheDefaultDivisor : Obligations.ResetInstallsTheDefaultDivisor := fun s hr =>
  ⟨s.dropEdge.applyReset, step_of_rst hr, State.applyReset_cfg _, State.applyReset_live _,
    defaultDivisor_toNat_eq_mod s.cfg.W, Engine.afterReset_ifState _, Engine.afterReset_rspValid _⟩

end Sys2Proof.Machine
end

section
/-! PROOF. The decoder and the encoder, written from one table, undo each other (spec/30_encoding.md R40 to R43). -/

namespace Sys2Proof

variable {W : Nat}

/-- R42: the table has four rows. -/
theorem opcode_cases : ∀ op : BitVec 2, op = 0b00#2 ∨ op = 0b01#2 ∨ op = 0b10#2 ∨ op = 0b11#2 := by decide

theorem decodeFields_encode (n : Nat) : decodeFields 0b00#2 n = .encode n := rfl
theorem decodeFields_verify (n : Nat) : decodeFields 0b01#2 n = .verify n := rfl
theorem decodeFields_setdiv (n : Nat) : decodeFields 0b10#2 n = .setdiv n := rfl
theorem decodeFields_rsvd (n : Nat) : decodeFields 0b11#2 n = .rsvd n := rfl

@[simp] theorem decodeFields_op_data : ∀ i : Instr, decodeFields i.op i.data = i
  | .encode n => decodeFields_encode n
  | .verify n => decodeFields_verify n
  | .setdiv n => decodeFields_setdiv n
  | .rsvd n => decodeFields_rsvd n

@[simp] theorem data_decodeFields (op : BitVec 2) (n : Nat) : (decodeFields op n).data = n := by
  obtain rfl | rfl | rfl | rfl := opcode_cases op <;> rfl

@[simp] theorem op_decodeFields (op : BitVec 2) (n : Nat) : (decodeFields op n).op = op := by
  obtain rfl | rfl | rfl | rfl := opcode_cases op <;> rfl

/-- A number in range is the number of its word (R46). -/
theorem toNat_zextW {n : Nat} (h : n < 2 ^ W) : (zextW W n).toNat = n := Nat.mod_eq_of_lt h

/-- The two fields make up the command word. -/
@[simp] theorem commandWord_fields (cmd : BitVec (W + 2)) : commandWord (dataField cmd) (opField cmd) = cmd := by
  apply BitVec.eq_of_toNat_eq
  rw [commandWord_toNat, dataField_toNat, opField_toNat]
  omega

theorem decode_commandWord (data : Word W) (op : BitVec 2) :
    decode (commandWord data op) = decodeFields op data.toNat := by
  rw [decode, Laws.OpcodeField.opField_commandWord, dataField_commandWord]

theorem decode_encode {i : Instr} (h : i.wellFormed W = true) : decode (encode W i) = i := by
  rw [encode, decode_commandWord, toNat_zextW (of_decide_eq_true h), decodeFields_op_data]

/-- R43: no command word is rejected, so a decoded operand is in range. -/
theorem decode_wellFormed (cmd : BitVec (W + 2)) : (decode cmd).wellFormed W = true := by
  rw [Instr.wellFormed, decode, data_decodeFields]
  exact decide_eq_true (dataField cmd).isLt

theorem encode_decode (cmd : BitVec (W + 2)) : encode W (decode cmd) = cmd := by
  rw [encode, decode, data_decodeFields, op_decodeFields, Machine.zextW_toNat, commandWord_fields]

/-- Settles O4: one lemma for each direction. -/
theorem decodeAndEncodeAreInverse : Obligations.DecodeAndEncodeAreInverse :=
  ⟨fun _ _ h => decode_encode h, fun _ cmd => ⟨decode_wellFormed cmd, encode_decode cmd⟩⟩

/-- Settles O1: the decoder run on the six words. -/
theorem sampleCommandWordsDecode : Obligations.SampleCommandWordsDecode := by
  unfold Obligations.SampleCommandWordsDecode
  decide

end Sys2Proof
end

section
/-! PROOF. The text form and the range of its literals (spec/30_encoding.md R46). -/

namespace Sys2Proof.Machine

theorem rangedLiteral_of_lt {bits n : Nat} {cs : List Char} (hv : literalValue cs = some n) (h : n < 2 ^ bits) :
    rangedLiteral bits cs = .ok n := by
  simp [rangedLiteral, hv, h]

theorem rangedLiteral_of_le {bits n : Nat} {cs : List Char} (hv : literalValue cs = some n) (h : 2 ^ bits ≤ n) :
    rangedLiteral bits cs = .error .outOfRange := by
  simp [rangedLiteral, hv, Nat.not_lt.2 h]

/-- Settles O6: the mnemonic gives the constructor, and the literal's range decides. -/
theorem textFormRejectsLiteralsOutOfRange : Obligations.TextFormRejectsLiteralsOutOfRange := by
  intro W n m lit mk hm hv
  refine ⟨fun h => ?_, fun h => ?_⟩
  · simp [wordsAction, hm, rangedLiteral_of_lt hv h]
  · simp [wordsAction, hm, rangedLiteral_of_le hv h]

end Sys2Proof.Machine
end

section
/-! PROOF. What a command can answer, whichever it is: the registers its rule fixes (spec/40_divider.md section 2;
spec/20_memory.md R39). -/

namespace Sys2Proof.Machine

variable {W : Nat}

/-- `e'` are the registers that computing `i` on the registers `e` leaves: the response and the divisor its rule gives,
the interface in `RESP`, and the latches as they were. -/
structure Engine.Answers (e : Engine W) (i : Instr) (e' : Engine W) : Prop where
  ifState : e'.ifState = .resp
  response : e'.response = ruleResponse e.divS i
  div : e'.div = ruleDivisor e.div i
  opR : e'.opR = e.opR
  dataR : e'.dataR = e.dataR
  divS : e'.divS = e.divS

theorem Engine.Answers.latched {e e' : Engine W} {i : Instr} (h : e.Answers i e') : e'.latched = e.latched := by
  rw [Engine.latched, h.dataR, h.opR, Engine.latched]

/-! What each of the four answers, given an operand in range, and a divisor where it divides. -/

theorem exec_encode {s : State} {n : Nat} (hn : n < 2 ^ s.cfg.W) (hd : s.eng.divS ≠ 0) :
    exec (.encode n) s =
      .next (s.withEngine ((s.eng.setWork (reduce (widen (zextW s.cfg.W n) s.eng.divS) s.eng.divS)).respond
        (codeword (zextW s.cfg.W n) s.eng.divS) false false)) :=
  (withOperand_of_lt hn).trans (withDivisor_of_ne hd)

theorem exec_verify {s : State} {n : Nat} (hn : n < 2 ^ s.cfg.W) (hd : s.eng.divS ≠ 0) :
    exec (.verify n) s =
      .next (s.withEngine ((s.eng.setWork (reduce (zextW s.cfg.W n) s.eng.divS)).respond 0
        (zeroRemainder (reduce (zextW s.cfg.W n) s.eng.divS)) false)) :=
  (withOperand_of_lt hn).trans (withDivisor_of_ne hd)

theorem exec_setdiv {s : State} {n : Nat} (hn : n < 2 ^ s.cfg.W) :
    exec (.setdiv n) s = .next (s.withEngine ((s.eng.writeDiv (zextW s.cfg.W n)).respond 0 false false)) :=
  withOperand_of_lt hn

theorem exec_rsvd {s : State} (n : Nat) (h : s.cfg.onIllegal = .answer) :
    exec (.rsvd n) s = .next (s.withEngine s.eng.raiseIllegalCommand) :=
  execRsvd_of_answer (n := n) h

/-- Everything a command can answer as a next state. -/
theorem exec_next {i : Instr} {s t : State} (h : exec i s = .next t) :
    ∃ e : Engine s.cfg.W, t = s.withEngine e ∧ s.eng.Answers i e := by
  cases i with
  | encode n =>
    obtain ⟨-, -, rfl⟩ := execEncode_next h
    exact ⟨_, rfl, rfl, rfl, rfl, rfl, rfl, rfl⟩
  | verify n =>
    obtain ⟨-, -, rfl⟩ := execVerify_next h
    exact ⟨_, rfl, rfl, rfl, rfl, rfl, rfl, rfl⟩
  | setdiv n =>
    obtain ⟨-, rfl⟩ := execSetdiv_next h
    exact ⟨_, rfl, by constructor <;> simp [ruleResponse, ruleDivisor]⟩
  | rsvd n =>
    obtain ⟨-, rfl⟩ := execRsvd_next (n := n) h
    exact ⟨_, rfl, rfl, rfl, rfl, rfl, rfl, rfl⟩

/-- A command of this engine that its configuration runs to a response has one, unless the snapshot is 0. -/
theorem exec_of_completes {s : State} {i : Instr} (hw : i.wellFormed s.cfg.W = true) (hd : s.eng.divS ≠ 0)
    (hc : completes s.cfg i = true) : ∃ e : Engine s.cfg.W, exec i s = .next (s.withEngine e) ∧ s.eng.Answers i e := by
  obtain ⟨t, ht⟩ : ∃ t, exec i s = .next t := by
    have hn := of_decide_eq_true hw
    cases i with
    | encode n => exact ⟨_, exec_encode hn hd⟩
    | verify n => exact ⟨_, exec_verify hn hd⟩
    | setdiv n => exact ⟨_, exec_setdiv hn⟩
    | rsvd n => exact ⟨_, exec_rsvd n (of_decide_eq_true hc)⟩
  obtain ⟨e, rfl, ha⟩ := exec_next ht
  exact ⟨e, ht, ha⟩

/-- Settles O21: `exec_of_completes`, whose registers are those the rule fixes. -/
theorem everyCommandCompletesByItsRule : Obligations.EveryCommandCompletesByItsRule := by
  intro s i hw hd hc
  obtain ⟨e, he, ha⟩ := exec_of_completes hw hd hc
  exact ⟨e, he, ha.ifState, ha.response, ha.div⟩

end Sys2Proof.Machine
end

section
/-! PROOF. The invariant of the engine: it holds after reset, and each thing an edge can do keeps it
(spec/10_state.md R17, R20, R21; spec/20_memory.md R34). -/

namespace Sys2Proof.Machine

variable {W : Nat}

theorem defaultDivisor_ne_zero (hW : 8 ≤ W) : Config.defaultDivisor W ≠ 0 := by
  intro h
  have hv := defaultDivisor_toNat hW
  rw [h, BitVec.ofNat_eq_ofNat, BitVec.toNat_ofNat, Nat.zero_mod] at hv
  omega

/-- R20's table: each command's response is one of its rows. -/
theorem ruleResponse_legal (d : Word W) (i : Instr) : (ruleResponse d i).legal = true := by
  cases i <;> simp [ruleResponse, Response.legal]

/-- R58: a divisor of 0 is never installed. -/
theorem ruleDivisor_ne_zero {d : Word W} (hd : d ≠ 0) (i : Instr) : ruleDivisor d i ≠ 0 := by
  cases i with
  | setdiv n =>
    rw [ruleDivisor]
    split
    · exact hd
    · assumption
  | _ => exact hd

/-- A response presented by a live engine may be delivered. -/
theorem Inv.response_legal {s : State} (h : Inv s) (hl : s.live = true) (hi : s.eng.ifState = .resp) :
    s.eng.response.legal = true := by
  obtain ⟨-, hresp⟩ := h.answered hl hi
  rw [hresp]
  exact ruleResponse_legal _ _

/-- The coming edges are no part of the invariant. -/
theorem Inv.setEdges {s : State} (h : Inv s) (edges : List (Edge s.cfg.W)) : Inv { s with edges := edges } :=
  ⟨h.width, h.divisor, h.snapshot, h.answered, h.log⟩

theorem Inv.dropEdge {s : State} (h : Inv s) : Inv s.dropEdge := h.setEdges _

theorem Inv.applyReset {s : State} (h : Inv s) : Inv s.applyReset where
  width := h.width
  divisor := fun _ => defaultDivisor_ne_zero h.width
  snapshot := fun _ hi => by cases hi
  answered := fun _ hi => by cases hi
  log := h.log

/-- The response registers carry no meaning outside `RESP`. -/
theorem Inv.loseResponse {s : State} (h : Inv s) (hi : s.eng.ifState ≠ .resp) : Inv s.loseResponse where
  width := h.width
  divisor := h.divisor
  snapshot := h.snapshot
  answered := fun _ hr => absurd hr hi
  log := h.log

theorem Inv.accept {s : State} (h : Inv s) (op : BitVec 2) (data : Word s.cfg.W) : Inv (s.accept op data) where
  width := h.width
  divisor := h.divisor
  snapshot := fun _ _ => rfl
  answered := fun _ hr => by cases hr
  log := h.log

theorem Inv.deliver {s : State} (h : Inv s) (hl : s.live = true) (hi : s.eng.ifState = .resp) : Inv s.deliver where
  width := h.width
  divisor := h.divisor
  snapshot := fun _ hb => by cases hb
  answered := fun _ hr => by cases hr
  log := by
    intro r hr
    obtain hr | hr := List.mem_append.1 hr
    · exact h.log r hr
    · rw [List.mem_singleton.1 hr]
      exact h.response_legal hl hi

/-- In `BUSY` the snapshot is the divisor, so the answer is one under a divisor that is not 0. -/
theorem Inv.compute {s t : State} (h : Inv s) (hi : s.eng.ifState = .busy)
    (ht : exec (decode s.eng.latched) s = .next t) : Inv t := by
  obtain ⟨e, rfl, ha⟩ := exec_next ht
  refine ⟨h.width, fun hl => ?_, fun _ hb => ?_, fun hl _ => ⟨?_, ?_⟩, h.log⟩
  · exact ha.div ▸ ruleDivisor_ne_zero (h.divisor hl) _
  · cases ha.ifState.symm.trans hb
  · have hdivS : e.divS = s.eng.div := ha.divS.trans (h.snapshot hl hi)
    exact hdivS ▸ h.divisor hl
  · have hresp : e.response = ruleResponse e.divS (decode e.latched) := by rw [ha.response, ha.divS, ha.latched]
    exact hresp

/-- Settles O46: one lemma for each thing an edge can do. -/
theorem stepKeepsTheInvariant : Obligations.StepKeepsTheInvariant := by
  intro s t h ht
  obtain ⟨-, rfl⟩ | ⟨-, -, -, rfl⟩ | ⟨-, -, -, -, rfl⟩ | ⟨-, -, hi, -, rfl⟩ | ⟨-, -, hi, -, rfl⟩ |
    ⟨-, -, hi, -, he⟩ | ⟨-, hl, hi, -, rfl⟩ | ⟨-, -, -, -, rfl⟩ := step_next ht
  · exact h.dropEdge.applyReset
  · exact h.dropEdge
  · exact h.dropEdge.accept _ _
  · exact h.dropEdge.loseResponse (by simp [hi])
  · exact h.dropEdge.loseResponse (by simp [hi])
  · exact h.dropEdge.compute hi he
  · exact h.dropEdge.deliver hl hi
  · exact h.dropEdge

theorem inv_resetAt {c : Config} (hc : c.wf = true) : Inv (State.resetAt c) where
  width := of_decide_eq_true hc
  divisor := fun _ => defaultDivisor_ne_zero (of_decide_eq_true hc)
  snapshot := fun _ hi => by cases hi
  answered := fun _ hi => by cases hi
  log := fun _ hr => by cases hr

/-- Before the first reset nothing is asked of the registers. -/
theorem inv_powerUp {c : Config} (anything : Engine c.W) (hc : c.wf = true) : Inv (State.powerUp c anything) where
  width := of_decide_eq_true hc
  divisor := fun hl => by cases hl
  snapshot := fun hl => by cases hl
  answered := fun hl => by cases hl
  log := fun _ hr => by cases hr

/-- Settles O45: `State.reset` is the reset state of the reference configuration. -/
theorem invariantHoldsAfterReset : Obligations.InvariantHoldsAfterReset :=
  ⟨inv_resetAt (by decide), fun _ => inv_resetAt, fun _ => inv_powerUp⟩

/-- Settles O47: a divisor that is not 0 has a bit length that is not 0. -/
theorem divisorBitLengthIsInRange : Obligations.DivisorBitLengthIsInRange := fun s h hl =>
  ⟨numBits_pos (h.divisor hl), numBits_le s.eng.div⟩

end Sys2Proof.Machine
end

section
/-! PROOF. One pass of the loop, and how many there are (spec/40_divider.md R51). -/

namespace Sys2Proof.Machine

variable {W : Nat} {x d : Word W}

/-- A shift within the word multiplies. -/
theorem toNat_shiftLeft_of_le {k : Nat} (h : numBits d + k ≤ W) : (d <<< k).toNat = d.toNat * 2 ^ k := by
  have hfit : d.toNat * 2 ^ k < 2 ^ W := calc
    d.toNat * 2 ^ k < 2 ^ numBits d * 2 ^ k :=
      Nat.mul_lt_mul_of_pos_right (numBits_le_iff_toNat_lt.1 le_rfl) (Nat.two_pow_pos k)
    _ = 2 ^ (numBits d + k) := (Nat.pow_add ..).symm
    _ ≤ 2 ^ W := Nat.pow_le_pow_right (by decide) h
  rw [BitVec.toNat_shiftLeft, Nat.shiftLeft_eq, Nat.mod_eq_of_lt hfit]

/-- Settles O9: the divisor is not 0, so it takes up one of the `NUMBITS(crc)` places that the aligned one ends at. -/
theorem reductionPassClearsTheTopBit : Obligations.ReductionPassClearsTheTopBit := by
  intro W crc d hd h
  have hp := numBits_pos hd
  have hw := numBits_le crc
  exact ⟨by omega, toNat_shiftLeft_of_le (by omega), numBits_aligned hd h, reducePass_eq hd h,
    numBits_reducePass_lt hd h⟩

/-- The loop is its pass, repeated as often as the count says. -/
theorem reduceLoop_eq_iterate (d : Word W) (fuel : Nat) (x : Word W) :
    reduceLoop d fuel x = (reducePass d)^[passCount d fuel x] x := by
  induction fuel generalizing x with
  | zero => rfl
  | succ fuel ih =>
    rw [reduceLoop, passCount]
    split
    · rw [Function.iterate_succ_apply, ih]
    · rfl

/-- Each pass shortens the word, and the loop ends below the divisor's length. -/
theorem passCount_le (hd : d ≠ 0) (fuel : Nat) (x : Word W) : passCount d fuel x ≤ numBits x + 1 - numBits d := by
  induction fuel generalizing x with
  | zero => exact Nat.zero_le _
  | succ fuel ih =>
    rw [passCount]
    split
    case isTrue h =>
      have hshorter := numBits_reducePass_lt hd h
      have hrest := ih (reducePass d x)
      omega
    case isFalse => exact Nat.zero_le _

theorem reduce_toNat_lt (hd : d ≠ 0) (x : Word W) : (reduce x d).toNat < 2 ^ (numBits d - 1) :=
  numBits_le_iff_toNat_lt.1 (Nat.le_sub_one_of_lt (numBits_reduce_lt hd x))

/-- Settles O10: the second bound is the first one for a word of `W` bits. -/
theorem reductionPassesAreBounded : Obligations.ReductionPassesAreBounded := by
  intro W x d hd
  have hcount : reducePasses x d ≤ numBits x + 1 - numBits d := passCount_le hd W x
  have hx := numBits_le x
  exact ⟨reduceLoop_eq_iterate d W x, hcount, by omega, reduce_toNat_lt hd x⟩

end Sys2Proof.Machine
end

section
/-! PROOF. The polynomial reading of a word: coefficients, XOR as sum, shift as product, bit length as degree
(spec/00_scope.md R10). -/

namespace Sys2Proof.Machine

open Polynomial

variable {W : Nat} {v d : Word W}

theorem poly_coeff (v : Word W) (i : Nat) : (poly v).coeff i = if v.getLsbD i then 1 else 0 := by
  simp only [poly, finsetSum_coeff, coeff_C_mul_X_pow]
  rw [Finset.sum_ite_eq]
  split
  · rfl
  · next h => simp [BitVec.getLsbD_of_ge v i (by simpa using h)]

theorem poly_zero : poly (0 : Word W) = 0 := by
  ext i
  simp [poly_coeff]

/-- R10: XOR is addition over GF(2). -/
@[simp] theorem poly_xor (a b : Word W) : poly (a ^^^ b) = poly a + poly b := by
  ext i
  simp only [coeff_add, poly_coeff, BitVec.getLsbD_xor]
  cases a.getLsbD i <;> cases b.getLsbD i <;> decide

theorem poly_injective : Function.Injective (poly (W := W)) := by
  intro a b h
  apply BitVec.eq_of_getLsbD_eq
  intro i _
  have hi : (poly a).coeff i = (poly b).coeff i := by rw [h]
  rw [poly_coeff, poly_coeff] at hi
  cases ha : a.getLsbD i <;> cases hb : b.getLsbD i <;> simp [ha, hb] at hi ⊢

theorem poly_eq_zero_iff : poly v = 0 ↔ v = 0 := by
  rw [← poly_zero (W := W), poly_injective.eq_iff]

/-- A shift within the word multiplies by a power of `x`. -/
theorem poly_shiftLeft {k : Nat} (h : numBits d + k ≤ W) : poly (d <<< k) = poly d * X ^ k := by
  ext i
  rw [coeff_mul_X_pow', poly_coeff, poly_coeff, BitVec.getLsbD_shiftLeft]
  by_cases hk : k ≤ i
  · by_cases hi : i < W
    · simp [hi, hk]
    · simp [hi, hk, getLsbD_eq_false_of_numBits_le (v := d) (i := i - k) (by omega)]
  · simp [hk]

/-- The bit length is the degree plus one (0 for the polynomial 0). -/
theorem poly_degree_lt_iff {k : Nat} : (poly v).degree < k ↔ numBits v ≤ k := by
  rw [degree_lt_iff_coeff_zero, numBits_le_iff]
  simp [poly_coeff]

/-- Over GF(2) every nonzero polynomial is monic. -/
theorem poly_monic (hd : d ≠ 0) : (poly d).Monic :=
  (by decide : ∀ c : ZMod 2, c ≠ 0 → c = 1) _ (leadingCoeff_ne_zero.2 (mt poly_eq_zero_iff.1 hd))

theorem poly_degree_lt (h : numBits v < numBits d) : (poly v).degree < (poly d).degree := calc
  (poly v).degree < numBits v := poly_degree_lt_iff.2 le_rfl
  _ ≤ (poly d).degree := not_lt.1 (mt poly_degree_lt_iff.1 (Nat.not_le.2 h))

end Sys2Proof.Machine
end

section
/-! PROOF. `REDUCE` is the remainder of polynomials, and what follows from that (spec/40_divider.md R52). -/

namespace Sys2Proof.Machine

open Polynomial

variable {W : Nat} {d : Word W}

/-- A pass adds a multiple of the divisor's polynomial. -/
theorem poly_reducePass {x : Word W} (hd : d ≠ 0) (h : numBits d ≤ numBits x) :
    poly (reducePass d x) = poly x + poly d * X ^ (numBits x - numBits d) := by
  have hw := numBits_le x
  rw [reducePass_eq hd h, poly_xor, aligned, poly_shiftLeft (by omega)]

theorem poly_reduce (hd : d ≠ 0) (x : Word W) : poly (reduce x d) = poly x %ₘ poly d := by
  refine reduce_induction hd (P := fun x r => poly r = poly x %ₘ poly d) ?_ ?_ x
  · intro x h
    exact ((modByMonic_eq_self_iff (poly_monic hd)).2 (poly_degree_lt h)).symm
  · intro x r h ih
    rw [ih, poly_reducePass hd h]
    exact modByMonic_eq_of_dvd_sub (poly_monic hd) (by simp)

/-- Settles O11: the induction of the loop, a pass being the addition of a multiple. -/
theorem reduceIsThePolynomialRemainder : Obligations.ReduceIsThePolynomialRemainder :=
  fun _ x _ hd => poly_reduce hd x

theorem reduce_xor (hd : d ≠ 0) (a b : Word W) : reduce (a ^^^ b) d = reduce a d ^^^ reduce b d := by
  apply poly_injective
  simp only [poly_reduce hd, poly_xor, add_modByMonic]

theorem reduce_eq_zero_iff_dvd (hd : d ≠ 0) (x : Word W) : reduce x d = 0 ↔ poly d ∣ poly x := by
  rw [← poly_eq_zero_iff, poly_reduce hd, modByMonic_eq_zero_iff_dvd (poly_monic hd)]

theorem reduce_zero (hd : d ≠ 0) : reduce 0 d = 0 := by
  rw [reduce_eq_zero_iff_dvd hd, poly_zero]
  exact dvd_zero _

/-- A remainder is its own remainder. -/
theorem reduce_reduce (hd : d ≠ 0) (x : Word W) : reduce (reduce x d) d = reduce x d :=
  reduce_of_lt (numBits_reduce_lt hd x)

theorem reduce_shiftLeft_self (hd : d ≠ 0) {k : Nat} (h : numBits d + k ≤ W) : reduce (d <<< k) d = 0 :=
  (reduce_eq_zero_iff_dvd hd _).2 (by simp [poly_shiftLeft h])

theorem reduce_self (hd : d ≠ 0) : reduce d d = 0 :=
  (reduce_eq_zero_iff_dvd hd d).2 dvd_rfl

/-- A word shorter than the divisor is a multiple only if it is 0. -/
theorem reduce_ne_zero_of_lt {x : Word W} (hx : x ≠ 0) (h : x.toNat < 2 ^ (numBits d - 1)) : reduce x d ≠ 0 := by
  have hx' := numBits_pos hx
  have hle := numBits_le_iff_toNat_lt.2 h
  rwa [reduce_of_lt (by omega)]

theorem numBits_one (hW : 0 < W) : numBits (1 : Word W) = 1 := numBits_ofNat_two_pow (k := 0) hW

theorem one_ne_zero_of_pos (hW : 0 < W) : (1 : Word W) ≠ 0 := by
  rw [← numBits_eq_zero_iff.ne, numBits_one hW]
  decide

/-- A remainder under the divisor 1 has no bits. -/
theorem reduce_divisor_one (x : Word W) : reduce x 1 = 0 := by
  obtain rfl | hW := Nat.eq_zero_or_pos W
  · exact Subsingleton.elim _ _
  · have hshort := numBits_reduce_lt (one_ne_zero_of_pos hW) x
    rw [numBits_one hW] at hshort
    exact numBits_eq_zero_iff.1 (by omega)

/-- Settles O12: linearity is that of the remainder of polynomials; the other two are about lengths. -/
theorem reduceIsLinearOverXor : Obligations.ReduceIsLinearOverXor :=
  ⟨fun _ a b _ hd => reduce_xor hd a b, fun _ _ _ h => reduce_of_lt h, fun _ x => reduce_divisor_one x⟩

end Sys2Proof.Machine
end

section
/-! PROOF. The default divisor as a polynomial (spec/10_state.md R18). -/

namespace Sys2Proof.Machine

open Polynomial

variable {W : Nat}

/-- Only the bits below the bit length contribute. -/
theorem poly_eq_sum_numBits (v : Word W) :
    poly v = ∑ i ∈ Finset.range (numBits v), C (if v.getLsbD i then 1 else 0) * X ^ i := by
  symm
  apply Finset.sum_subset (Finset.range_subset_range.2 (numBits_le v))
  intro i _ hi
  simp [getLsbD_eq_false_of_numBits_le (v := v) (by simpa using hi)]

theorem defaultDivisor_getLsbD (hW : 8 ≤ W) (i : Nat) : (Config.defaultDivisor W).getLsbD i = Nat.testBit 187 i := by
  rw [← BitVec.testBit_toNat, defaultDivisor_toNat hW]

/-- Settles O41: the sum over the eight bits of `0xBB`. -/
theorem defaultDivisorPolynomial : Obligations.DefaultDivisorPolynomial := by
  intro W hW
  rw [poly_eq_sum_numBits, numBits_defaultDivisor hW]
  simp only [defaultDivisor_getLsbD hW]
  simp [Config.defaultDivisorBits, Finset.sum_range_succ, Nat.testBit]
  ring

end Sys2Proof.Machine
end

section
/-! PROOF. The codeword: its corner cases, its bits, and its remainder (spec/40_divider.md R54, R55, R57). -/

namespace Sys2Proof.Machine

variable {W : Nat} {d : Word W}

theorem widen_zero (d : Word W) : widen 0 d = 0 := BitVec.zero_shiftLeft _

theorem codeword_zero (hd : d ≠ 0) : codeword 0 d = 0 := by
  rw [codeword, widen_zero, reduce_zero hd]
  exact BitVec.xor_self

/-- Under the divisor 1 nothing is widened and nothing remains (R59). -/
theorem codeword_divisor_one (v : Word W) : codeword v 1 = v := by
  have hlen : numBits (1 : Word W) ≤ 1 :=
    numBits_le_iff_toNat_lt.2 ((BitVec.toNat_ofNat 1 W).trans_lt ((Nat.mod_le 1 _).trans_lt (by decide)))
  rw [codeword, reduce_divisor_one, widen, Nat.sub_eq_zero_of_le hlen, BitVec.shiftLeft_zero]
  exact BitVec.xor_zero

/-- Under a divisor of full width only the lowest bit is left, at the top (R54). -/
theorem widen_of_numBits_eq_width (hd : d ≠ 0) (h : numBits d = W) (v : Word W) :
    widen v d = if v.getLsbD 0 then 1#W <<< (W - 1) else 0 := by
  have hW := h ▸ numBits_pos hd
  apply BitVec.eq_of_getLsbD_eq
  intro i hi
  rw [widen, h, BitVec.getLsbD_shiftLeft]
  obtain rfl | hne := eq_or_ne i (W - 1)
  · rw [Nat.sub_self]
    cases v.getLsbD 0 <;> simp [hW]
  · have hlt : i < W - 1 := by omega
    cases v.getLsbD 0 <;> simp [hlt]

/-- What ENCODE answers is a multiple of the divisor, overflow included (R55). -/
theorem reduce_codeword (hd : d ≠ 0) (v : Word W) : reduce (codeword v d) d = 0 := by
  rw [codeword, reduce_xor hd, reduce_reduce hd]
  exact BitVec.xor_self

/-- So the remainder of a corrupted codeword is that of the error (R62). -/
theorem reduce_codeword_xor (hd : d ≠ 0) (v x : Word W) : reduce (codeword v d ^^^ x) d = reduce x d := by
  rw [reduce_xor hd, reduce_codeword hd]
  exact BitVec.zero_xor

/-- Widening leaves the low `db - 1` bits free. -/
theorem codeword_getLsbD_of_lt {i : Nat} (h : i < numBits d - 1) (v : Word W) :
    (codeword v d).getLsbD i = (reduce (widen v d) d).getLsbD i := by
  simp [codeword, widen, h]

/-- The remainder fits into them. -/
theorem codeword_getLsbD_of_le (hd : d ≠ 0) {i : Nat} (h : numBits d - 1 ≤ i) (v : Word W) :
    (codeword v d).getLsbD i = (widen v d).getLsbD i := by
  have hshort := numBits_reduce_lt hd (widen v d)
  rw [codeword, BitVec.getLsbD_xor, getLsbD_eq_false_of_numBits_le (v := reduce (widen v d) d) (by omega),
    Bool.xor_false]

/-- Settles O23: the two parts of the XOR do not overlap. -/
theorem codewordHasTheRemainderInItsLowBits : Obligations.CodewordHasTheRemainderInItsLowBits := fun _ v _ hd =>
  ⟨fun _ h => codeword_getLsbD_of_lt h v, fun _ h => codeword_getLsbD_of_le hd h v, reduce_codeword hd v⟩

/-- The value 1 is widened to a word of the divisor's length; one pass takes the divisor itself from it, and what is
left is the remainder (R16). -/
theorem codeword_one (hd : d ≠ 0) : codeword 1 d = d := by
  have hp := numBits_pos hd
  have hw := numBits_le d
  have hlen : numBits (widen 1 d) = numBits d := by
    have hwide : widen 1 d = BitVec.ofNat W (2 ^ (numBits d - 1)) := by
      have hone : (1 : Word W).toNat = 1 := Nat.mod_eq_of_lt (Nat.one_lt_two_pow (by omega))
      apply BitVec.eq_of_toNat_eq
      rw [widen_toNat, hone, Nat.one_mul, BitVec.toNat_ofNat]
    rw [hwide, numBits_ofNat_two_pow (by omega)]
    omega
  have hpass : reducePass d (widen 1 d) = widen 1 d ^^^ d := by
    rw [reducePass_eq hd hlen.ge, aligned, hlen, Nat.sub_self, BitVec.shiftLeft_zero]
  have hrem : reduce (widen 1 d) d = widen 1 d ^^^ d := by
    have hshort := numBits_reducePass_lt hd hlen.ge
    rw [reduce_of_le hd hlen.ge, reduce_of_lt (by omega), hpass]
  rw [codeword, hrem, ← BitVec.xor_assoc, BitVec.xor_self, BitVec.zero_xor]

/-- The word 1 is a multiple of the divisor 1 only (R63). -/
theorem reduce_one_eq_zero_iff (hd : d ≠ 0) : reduce 1 d = 0 ↔ numBits d = 1 := by
  have hp := numBits_pos hd
  have hlen : numBits (1 : Word W) = 1 := numBits_one (hp.trans_le (numBits_le d))
  constructor
  · intro h
    by_contra hne
    rw [reduce_of_lt (by omega)] at h
    rw [numBits_eq_zero_iff.2 h] at hlen
    omega
  · intro h
    have hshort := numBits_reduce_lt hd 1
    exact numBits_eq_zero_iff.1 (by omega)

theorem zeroRemainder_reduce_iff_dvd (hd : d ≠ 0) (x : Word W) :
    zeroRemainder (reduce x d) = true ↔ poly d ∣ poly x := by
  rw [zeroRemainder, decide_eq_true_iff, reduce_eq_zero_iff_dvd hd]

end Sys2Proof.Machine
end

section
/-! PROOF. The commands that divide (spec/40_divider.md R54 to R57, R59). -/

namespace Sys2Proof.Machine

variable {W : Nat}

/-- A command whose operand is the number of a word carries that word as it stands (R41). -/
theorem encode_of_data_eq {i : Instr} {v : Word W} (h : i.data = v.toNat) : encode W i = commandWord v i.op := by
  rw [encode, h, zextW_toNat]

theorem exec_encode_word {s : State} (v : Word s.cfg.W) (hd : s.eng.divS ≠ 0) :
    exec (.encode v.toNat) s =
      .next (s.withEngine ((s.eng.setWork (reduce (widen v s.eng.divS) s.eng.divS)).respond
        (codeword v s.eng.divS) false false)) := by
  rw [exec_encode v.isLt hd, zextW_toNat]

theorem exec_verify_word {s : State} (v : Word s.cfg.W) (hd : s.eng.divS ≠ 0) :
    exec (.verify v.toNat) s =
      .next (s.withEngine ((s.eng.setWork (reduce v s.eng.divS)).respond 0
        (zeroRemainder (reduce v s.eng.divS)) false)) := by
  rw [exec_verify v.isLt hd, zextW_toNat]

/-- Settles O14: `exec_encode_word`, and a lemma for each corner case. -/
theorem encodeAnswersTheCodeword : Obligations.EncodeAnswersTheCodeword := by
  refine ⟨fun s v hd => exec_encode_word v hd, fun W v => encode_of_data_eq rfl, fun W v d hd => ?_, by decide⟩
  refine ⟨codeword_zero hd, ?_, fun h => widen_of_numBits_eq_width hd h v, reduce_codeword hd v⟩
  rintro rfl
  exact codeword_divisor_one v

/-- Settles O15: `exec_verify_word`, and a lemma for each corner case. -/
theorem verifyAnswersWhetherTheRemainderIsZero : Obligations.VerifyAnswersWhetherTheRemainderIsZero := by
  refine ⟨fun s v hd => exec_verify_word v hd, fun W v => encode_of_data_eq rfl, fun W v d hd => ?_,
    by decide, by decide⟩
  refine ⟨reduce_zero hd, reduce_ne_zero_of_lt, reduce_self hd, ?_⟩
  rintro rfl
  exact reduce_divisor_one v

/-- Settles O22: the codeword of 1 is the divisor. -/
theorem encodeOneReadsBackTheDivisor : Obligations.EncodeOneReadsBackTheDivisor := by
  intro s hd
  have hW : 0 < s.cfg.W := (numBits_pos hd).trans_le (numBits_le _)
  refine ⟨_, exec_encode (Nat.one_lt_two_pow hW.ne') hd, ?_⟩
  rw [Engine.respond_response]
  exact congrArg (Response.mk · false false) (codeword_one hd)

/-- Settles O24: the flag is divisibility, which XOR and shifts keep. -/
theorem verifyAcceptsExactlyTheMultiples : Obligations.VerifyAcceptsExactlyTheMultiples := by
  constructor
  · intro s t v h
    obtain ⟨-, hd, rfl⟩ := execVerify_next h
    rw [zextW_toNat]
    exact zeroRemainder_reduce_iff_dvd hd v
  · intro W a b d hd
    refine ⟨fun ha hb => ?_, reduce_zero hd, fun k => reduce_shiftLeft_self hd⟩
    rw [reduce_xor hd, ha, hb]
    exact BitVec.xor_self

/-- Settles O25: under the divisor 1 the codeword is the value and every remainder is 0. -/
theorem divisorOneAcceptsEverything : Obligations.DivisorOneAcceptsEverything := by
  intro s v hW h1
  have hd : s.eng.divS ≠ 0 := h1 ▸ one_ne_zero_of_pos hW
  refine ⟨⟨_, exec_encode_word v hd, ?_⟩, ⟨_, exec_verify_word v hd, ?_⟩⟩
  · rw [Engine.respond_response, h1, codeword_divisor_one]
  · rw [Engine.respond_response, h1, reduce_divisor_one]
    rfl

/-- Settles O29: both commands answer with the latches as they were. -/
theorem dividingCommandsFrame : Obligations.DividingCommandsFrame := by
  rintro s t n (h | h)
  all_goals
    obtain ⟨e, rfl, ha⟩ := exec_next h
    exact ⟨e, rfl, ha.ifState, ha.div, ha.opR, ha.dataR, ha.divS⟩

end Sys2Proof.Machine
end

section
/-! PROOF. The source's testable properties (spec/40_divider.md R61 to R63). -/

namespace Sys2Proof.Machine

/-- Settles O26: the second state has the same divisor, and the codeword has remainder 0 under it. -/
theorem encodeThenVerifySucceeds : Obligations.EncodeThenVerifySucceeds := by
  intro s v hd
  refine ⟨_, exec_encode_word v hd, fun s' hcfg hdiv => ?_⟩
  obtain ⟨cfg', eng', edges', delivered', live', draws'⟩ := s'
  obtain rfl : cfg' = s.cfg := hcfg
  have hsame : eng'.divS = s.eng.divS := BitVec.eq_of_toNat_eq hdiv
  refine ⟨_, exec_verify_word (s := ⟨s.cfg, eng', edges', delivered', live', draws'⟩) (codeword v s.eng.divS)
    (hsame ▸ hd), ?_, rfl, rfl⟩
  rw [Engine.respond_rspFlag, hsame, reduce_codeword hd]
  rfl

/-- ENCODE, an error `x` XORed into what it answered, and VERIFY: the flag tells of the error alone. -/
theorem verify_corrupted_codeword {s : State} {n : Nat} (hn : n < 2 ^ s.cfg.W) (hd : s.eng.divS ≠ 0)
    (x : Word s.cfg.W) : ∃ e e' : Engine s.cfg.W,
      exec (.encode n) s = .next { s with eng := e } ∧
      exec (.verify (e.rspData ^^^ x).toNat) s = .next { s with eng := e' } ∧
      e'.rspFlag = zeroRemainder (reduce x s.eng.divS) := by
  refine ⟨_, _, exec_encode hn hd, exec_verify_word _ hd, ?_⟩
  rw [Engine.respond_rspFlag, Engine.respond_rspData, reduce_codeword_xor hd]

/-- Settles O27: the flag tells whether the error is a multiple, which a short one is not. -/
theorem errorsAreDetectedUnlessMultiples : Obligations.ErrorsAreDetectedUnlessMultiples := by
  intro s v x hd
  obtain ⟨e, e', he, he', hflag⟩ := verify_corrupted_codeword v.isLt hd x
  refine ⟨e, e', he, he', ?_, fun hx hlt => ?_⟩
  · rw [hflag, zeroRemainder_reduce_iff_dvd hd]
  · rw [hflag, zeroRemainder, decide_eq_false_iff_not]
    exact reduce_ne_zero_of_lt hx hlt

/-- Settles O28: the error is 1, a multiple of no divisor of two bits or more. -/
theorem flippedLowBitIsDetected : Obligations.FlippedLowBitIsDetected := by
  intro s hW hd
  have hfit : 42 < 2 ^ s.cfg.W := lt_of_lt_of_le (by decide) (Nat.pow_le_pow_right (by decide) hW)
  obtain ⟨e, e', he, he', hflag⟩ := verify_corrupted_codeword hfit hd 1
  refine ⟨e, e', he, he', ?_⟩
  rw [hflag, zeroRemainder, decide_eq_true_iff, reduce_one_eq_zero_iff hd]

end Sys2Proof.Machine
end

section
/-! PROOF. The commands that do not divide (spec/40_divider.md R58, R60), and the stops of the four
(spec/60_exceptions.md R68; spec/93_implementation_defined.md U3). -/

namespace Sys2Proof.Machine

variable {W : Nat}

theorem Engine.writeDiv_eq (e : Engine W) (v : Word W) :
    e.writeDiv v = { e with div := if v = 0 then e.div else v } := by
  unfold Engine.writeDiv
  split <;> rfl

/-- Settles O16: the divisor register is written in one of two ways, all others alike. -/
theorem setdivReplacesTheDivisorUnlessZero : Obligations.SetdivReplacesTheDivisorUnlessZero := by
  refine ⟨fun s v => ?_, fun W v => encode_of_data_eq rfl⟩
  rw [exec_setdiv v.isLt, zextW_toNat, Engine.writeDiv_eq]
  rfl

/-- Settles O17: the error answer writes the response registers and the interface state only. -/
theorem rsvdAnswersTheErrorBit : Obligations.RsvdAnswersTheErrorBit :=
  ⟨fun _ data h => exec_rsvd data h, fun _ _ => encode_of_data_eq rfl⟩

/-- Settles O18: `execRsvd` looks at the configuration only. -/
theorem rsvdStopsARunWhereAsked : Obligations.RsvdStopsARunWhereAsked := fun _ data h =>
  execRsvd_of_stop (n := data) h

/-- U3: no meaning computes with the divisor 0. -/
theorem withDivisor_of_eq_zero {s : State} {k : Word s.cfg.W → Host.Outcome State Fault Refusal}
    (h : s.eng.divS = 0) : withDivisor s k = .fault .zeroDivisor := by
  rw [withDivisor, if_pos h]

/-- Settles O19: the operand is in range, so it is the divisor that stops both. -/
theorem reductionByZeroStops : Obligations.ReductionByZeroStops := fun _ v h =>
  ⟨(withOperand_of_lt v.isLt).trans (withDivisor_of_eq_zero h),
    (withOperand_of_lt v.isLt).trans (withDivisor_of_eq_zero h)⟩

/-- Settles O20: the three meanings read their operand first. -/
theorem operandsTooWideAreRefused : Obligations.OperandsTooWideAreRefused := fun _ _ h =>
  ⟨withOperand_of_le h, withOperand_of_le h, withOperand_of_le h⟩

/-- Settles O30: SETDIV writes no latch and no working register, RSVD not even the divisor. -/
theorem controlCommandsFrame : Obligations.ControlCommandsFrame := by
  constructor
  · intro s t n h
    obtain ⟨-, rfl⟩ := execSetdiv_next h
    rw [Engine.writeDiv_eq]
    exact ⟨_, rfl, rfl, rfl, rfl, rfl, rfl, rfl⟩
  · intro s t n h
    obtain ⟨-, rfl⟩ := execRsvd_next (n := n) h
    exact ⟨_, rfl, rfl, rfl, rfl, rfl, rfl, rfl, rfl⟩

end Sys2Proof.Machine
end

section
/-! PROOF. Single edges (spec/10_state.md R19 to R22, R26; spec/70_reset_and_hazards.md R80 to R84). -/

namespace Sys2Proof.Machine

/-- Settles O31: `step_compute`, the latched word written out. -/
theorem stepRunsTheLatchedCommand : Obligations.StepRunsTheLatchedCommand := fun _ hl hi hr hs =>
  step_compute hr hl hi hs

/-- A placed command is the next one computed: the latches hold its two fields. -/
theorem step_placeCommand (s : State) (cmd : BitVec (s.cfg.W + 2)) :
    step (s.placeCommand cmd) =
      exec (decode cmd) { s with eng := s.eng.latch (opField cmd) (dataField cmd), live := true } := by
  have hlatched : (s.placeCommand cmd).eng.latched = cmd := commandWord_fields cmd
  rw [step_compute (s := s.placeCommand cmd) rfl rfl rfl rfl, hlatched]
  rfl

/-- Settles O32: `withFetchWord` places the low bits of the number. -/
theorem placedWordRunsAtTheNextStep : Obligations.PlacedWordRunsAtTheNextStep := fun s _ _ => step_placeCommand s _

/-- Settles O33: `step_accept`; the registers are those of `Engine.latch`. -/
theorem idleAcceptsThePresentedCommand : Obligations.IdleAcceptsThePresentedCommand := fun _ hl hi hr hv =>
  ⟨_, _, step_accept hr hl hi hv, rfl, rfl, rfl, rfl, rfl, rfl, rfl⟩

/-- Settles O34: in either case the response registers lose their values and nothing else happens. -/
theorem waitingEdgesChangeNoRegister : Obligations.WaitingEdgesChangeNoRegister := by
  rintro s hl hr (⟨hi, hv⟩ | ⟨hi, hs⟩)
  · exact ⟨_, _, _, _, step_idle hr hl hi hv⟩
  · exact ⟨_, _, _, _, step_stall hr hl hi hs⟩

/-- Settles O35: `step_hold` and `step_deliver`. -/
theorem responseIsHeldUntilTaken : Obligations.ResponseIsHeldUntilTaken :=
  ⟨fun _ hl hi hr hv => step_hold hr hl hi hv, fun _ hl hi hr hv => ⟨_, _, _, _, step_deliver hr hl hi hv⟩⟩

/-! An edge without reset, in each interface state. -/

theorem interfaceEdge_idle {s : State} (hi : s.eng.ifState = .idle) (x : Edge s.cfg.W) :
    interfaceEdge s x = .next (if x.accepts s.eng then s.accept x.cmdOp x.cmdData else s.loseResponse) := by
  rw [interfaceEdge, hi]

theorem interfaceEdge_busy {s : State} (hi : s.eng.ifState = .busy) (x : Edge s.cfg.W) :
    interfaceEdge s x = if x.stall then .next s.loseResponse else exec (decode s.eng.latched) s := by
  rw [interfaceEdge, hi]

theorem interfaceEdge_resp {s : State} (hi : s.eng.ifState = .resp) (x : Edge s.cfg.W) :
    interfaceEdge s x = .next (if x.takes s.eng then s.deliver else s) := by
  rw [interfaceEdge, hi]

/-- Each interface state looks at its own inputs only; in `IDLE` the command counts if it is accepted. -/
theorem interfaceEdge_congr {s : State} {x y : Edge s.cfg.W} (hr : x.rst = y.rst)
    (h : s.eng.ifState = .busy ∧ x.stall = y.stall ∨
      s.eng.ifState = .resp ∧ x.rspReady = y.rspReady ∨
      s.eng.ifState = .idle ∧ x.cmdValid = y.cmdValid ∧
        (x.cmdValid = true → x.cmdOp = y.cmdOp ∧ x.cmdData = y.cmdData)) :
    interfaceEdge s x = interfaceEdge s y := by
  obtain ⟨hi, hs⟩ | ⟨hi, hs⟩ | ⟨hi, hv, hcmd⟩ := h
  · rw [interfaceEdge_busy hi, interfaceEdge_busy hi, hs]
  · rw [interfaceEdge_resp hi, interfaceEdge_resp hi, Edge.takes, Edge.takes, hs]
  · have haccepts : x.accepts s.eng = y.accepts s.eng := by rw [Edge.accepts, Edge.accepts, hv, hr]
    rw [interfaceEdge_idle hi, interfaceEdge_idle hi, ← haccepts]
    cases hx : x.cmdValid with
    | true =>
      obtain ⟨hop, hdata⟩ := hcmd hx
      rw [hop, hdata]
    | false =>
      have hnot : x.accepts s.eng = false := by rw [Edge.accepts, hx, Bool.false_and]
      simp [hnot]

/-- Settles O36: a reset looks at no other input, and without one the edge is `interfaceEdge`. -/
theorem inputsCountOnlyWhereSampled : Obligations.InputsCountOnlyWhereSampled := by
  intro s x y rest hl hr h
  cases hx : x.rst with
  | true =>
    have hy : y.rst = true := hr ▸ hx
    rw [step_of_rst (s := { s with edges := x :: rest }) hx, step_of_rst (s := { s with edges := y :: rest }) hy]
    rfl
  | false =>
    have hy : y.rst = false := hr ▸ hx
    rw [step_of_not_rst (s := { s with edges := x :: rest }) hx hl,
      step_of_not_rst (s := { s with edges := y :: rest }) hy hl]
    exact interfaceEdge_congr (s := { s with edges := rest }) hr h

/-- Settles O38: a resetting edge writes every register, so nothing of the old ones is left. -/
theorem resetForgetsTheCommandInFlight : Obligations.ResetForgetsTheCommandInFlight :=
  fun _ _ _ _ _ _ _ _ _ _ hr => ⟨_, _, _, _, step_of_rst hr, step_of_rst hr, rfl, rfl, rfl, rfl⟩

/-- Settles O39: the two edges without reset that `clockEdge` tells apart before the first one. -/
theorem commandsBeforeTheFirstResetStop : Obligations.CommandsBeforeTheFirstResetStop := fun _ hl hr =>
  ⟨step_before_reset_command hr hl, step_before_reset_wait hr hl⟩

/-- Settles O42: each field of the reset state. -/
theorem resetStateIsIdleAndReady : Obligations.ResetStateIsIdleAndReady :=
  ⟨rfl, rfl, rfl, rfl, rfl, rfl, rfl, rfl⟩

end Sys2Proof.Machine
end

section
/-! PROOF. What every step leaves, and when one stops (spec/10_state.md R16, R19; spec/60_exceptions.md R67, R68). -/

namespace Sys2Proof.Machine

variable {W : Nat}

theorem Engine.decode_latched (e : Engine W) : decode e.latched = decodeFields e.opR e.dataR.toNat :=
  decode_commandWord e.dataR e.opR

/-- R16: only a SETDIV with an operand that is not 0 leaves another divisor. -/
theorem ruleDivisor_latched (d : Word W) (e : Engine W) :
    ruleDivisor d (decode e.latched) = d ∨
      e.opR = 0b10#2 ∧ e.dataR ≠ 0 ∧ ruleDivisor d (decode e.latched) = e.dataR := by
  rw [e.decode_latched]
  obtain h | h | h | h := opcode_cases e.opR
  · exact .inl (by rw [h, decodeFields_encode, ruleDivisor])
  · exact .inl (by rw [h, decodeFields_verify, ruleDivisor])
  · rw [h, decodeFields_setdiv, ruleDivisor, zextW_toNat]
    split
    case isTrue => exact .inl rfl
    case isFalse hne => exact .inr ⟨rfl, hne, rfl⟩
  · exact .inl (by rw [h, decodeFields_rsvd, ruleDivisor])

/-- Settles O43: of all that an edge can do, only a reset and a computed command write `DIV`. -/
theorem onlySetdivAndResetChangeTheDivisor : Obligations.OnlySetdivAndResetChangeTheDivisor := by
  intro s t ht
  obtain ⟨hr, rfl⟩ | ⟨-, -, -, rfl⟩ | ⟨-, -, -, -, rfl⟩ | ⟨-, -, -, -, rfl⟩ | ⟨-, -, -, -, rfl⟩ |
    ⟨hr, -, hi, -, he⟩ | ⟨-, -, -, -, rfl⟩ | ⟨-, -, -, -, rfl⟩ := step_next ht
  · exact ⟨rfl, .inr (.inl ⟨hr, rfl⟩)⟩
  · exact ⟨rfl, .inl rfl⟩
  · exact ⟨rfl, .inl rfl⟩
  · exact ⟨rfl, .inl rfl⟩
  · exact ⟨rfl, .inl rfl⟩
  · obtain ⟨e, rfl, ha⟩ := exec_next he
    have hdiv : e.div = ruleDivisor s.eng.div (decode s.eng.latched) := ha.div
    refine ⟨rfl, ?_⟩
    obtain hsame | ⟨hop, hne, hnew⟩ := ruleDivisor_latched s.eng.div s.eng
    · exact .inl (congrArg BitVec.toNat (hdiv.trans hsame))
    · exact .inr (.inr ⟨hr, hi, hop, hne, congrArg BitVec.toNat (hdiv.trans hnew)⟩)
  · exact ⟨rfl, .inl rfl⟩
  · exact ⟨rfl, .inl rfl⟩

/-- Settles O44: of all that an edge can do, only a delivery adds to what the host has received. -/
theorem responsesAreDeliveredOneByOne : Obligations.ResponsesAreDeliveredOneByOne := by
  intro s t ht
  obtain ⟨-, rfl⟩ | ⟨-, -, -, rfl⟩ | ⟨-, -, -, -, rfl⟩ | ⟨-, -, -, -, rfl⟩ | ⟨-, -, -, -, rfl⟩ |
    ⟨-, -, -, -, he⟩ | ⟨hr, -, hi, hv, rfl⟩ | ⟨-, -, -, -, rfl⟩ := step_next ht
  · exact ⟨_, _, _, _, rfl, .inl rfl⟩
  · exact ⟨_, _, _, _, rfl, .inl rfl⟩
  · exact ⟨_, _, _, _, rfl, .inl rfl⟩
  · exact ⟨_, _, _, _, rfl, .inl rfl⟩
  · exact ⟨_, _, _, _, rfl, .inl rfl⟩
  · obtain ⟨e, rfl, -⟩ := exec_next he
    exact ⟨e, _, _, _, rfl, .inl rfl⟩
  · exact ⟨_, _, _, _, rfl, .inr ⟨hr, hi, hv, rfl⟩⟩
  · exact ⟨_, _, _, _, rfl, .inl rfl⟩

/-- Under the invariant a computed command that completes answers what its rule gives for `DIV`, the snapshot being
`DIV` (R34). -/
theorem step_of_completes {s : State} (h : Inv s) (hl : s.live = true) (hi : s.eng.ifState = .busy)
    (hr : s.edge.rst = false) (hs : s.edge.stall = false) (hc : completes s.cfg (decode s.eng.latched) = true) :
    ∃ e : Engine s.cfg.W, step s = .next (s.dropEdge.withEngine e) ∧ e.ifState = .resp ∧
      e.response = ruleResponse s.eng.div (decode s.eng.latched) ∧
      e.div = ruleDivisor s.eng.div (decode s.eng.latched) := by
  have hsnap := h.snapshot hl hi
  obtain ⟨e, he, ha⟩ := exec_of_completes (s := s.dropEdge) (decode_wellFormed s.eng.latched)
    (hsnap.trans_ne (h.divisor hl)) hc
  have hresp : e.response = ruleResponse s.eng.div (decode s.eng.latched) := hsnap ▸ ha.response
  exact ⟨e, (step_compute hr hl hi hs).trans he, ha.ifState, hresp, ha.div⟩

/-- A computed command that does not complete is the reserved opcode where a run stops at it. -/
theorem step_of_not_completes {s : State} (hl : s.live = true) (hi : s.eng.ifState = .busy)
    (hr : s.edge.rst = false) (hs : s.edge.stall = false) (hc : completes s.cfg (decode s.eng.latched) = false) :
    s.cfg.onIllegal = .stop ∧ s.eng.opR = 0b11#2 ∧ step s = .fault .illegalCommand := by
  obtain ⟨hstop, n, hrsvd⟩ := not_completes hc
  have hop : s.eng.opR = 0b11#2 := by
    rw [← op_decodeFields s.eng.opR s.eng.dataR.toNat, ← s.eng.decode_latched, hrsvd, Instr.op]
  refine ⟨hstop, hop, ?_⟩
  rw [step_compute hr hl hi hs, hrsvd]
  exact execRsvd_of_stop (n := n) (s := s.dropEdge) hstop

/-- Under the invariant an edge of an engine that has been reset goes on, or computes the reserved opcode where a run
stops at it. -/
theorem step_of_live {s : State} (h : Inv s) (hl : s.live = true) :
    (∃ t : State, step s = .next t ∧ t.live = true) ∨
    (s.cfg.onIllegal = .stop ∧ s.eng.ifState = .busy ∧ s.edge.rst = false ∧ s.edge.stall = false ∧
      s.eng.opR = 0b11#2 ∧ step s = .fault .illegalCommand) := by
  cases hr : s.edge.rst with
  | true => exact .inl ⟨_, step_of_rst hr, rfl⟩
  | false =>
    cases hi : s.eng.ifState with
    | idle =>
      cases hv : s.edge.cmdValid with
      | true => exact .inl ⟨_, step_accept hr hl hi hv, hl⟩
      | false => exact .inl ⟨_, step_idle hr hl hi hv, hl⟩
    | resp =>
      cases hv : s.edge.rspReady with
      | true => exact .inl ⟨_, step_deliver hr hl hi hv, hl⟩
      | false => exact .inl ⟨_, step_hold hr hl hi hv, hl⟩
    | busy =>
      cases hs : s.edge.stall with
      | true => exact .inl ⟨_, step_stall hr hl hi hs, hl⟩
      | false =>
        cases hc : completes s.cfg (decode s.eng.latched) with
        | true =>
          obtain ⟨e, he, -⟩ := step_of_completes h hl hi hr hs hc
          exact .inl ⟨_, he, hl⟩
        | false =>
          obtain ⟨hstop, hop, hfault⟩ := step_of_not_completes hl hi hr hs hc
          exact .inr ⟨hstop, rfl, rfl, rfl, hop, hfault⟩

/-- Settles O48: the configuration is not one that stops. -/
theorem answeringEngineNeverStops : Obligations.AnsweringEngineNeverStops := by
  intro s h hl hc
  obtain hnext | ⟨hstop, -⟩ := step_of_live h hl
  · exact hnext
  · cases hc.symm.trans hstop

/-- The reserved opcode placed after reset, whatever the operand. -/
theorem step_reset_of_mod_four {nbits w : Nat} (hn : 2 ≤ nbits) (hw : w % 4 = 3) :
    step (State.reset.withFetchWord nbits w) = .fault .illegalCommand := by
  have hlow : (BitVec.ofNat (State.reset.cfg.W + 2) (w % 2 ^ nbits)).toNat % 4 = (0b11#2).toNat := by
    rw [BitVec.toNat_ofNat, Nat.mod_mod_of_dvd _ (Nat.pow_dvd_pow 2 (Nat.le_add_left 2 _)),
      Nat.mod_mod_of_dvd _ (Nat.pow_dvd_pow 2 hn)]
    exact hw
  rw [State.withFetchWord, step_placeCommand, decode_of_mod_four hlow, decodeFields_rsvd]
  rfl

/-- Settles O52: the placed opcode, and `step_of_live`. -/
theorem onlyTheReservedOpcodeStopsAResetEngine : Obligations.OnlyTheReservedOpcodeStopsAResetEngine :=
  ⟨fun _ _ hn hw => step_reset_of_mod_four hn hw, fun _ h hl => step_of_live h hl⟩

/-- No error response is presented or has been delivered, in a configuration that stops at the reserved opcode. -/
structure ErrorFree (s : State) : Prop where
  stops : s.cfg.onIllegal = .stop
  presented : s.eng.ifState = .resp → s.eng.rspErr = false
  delivered : ∀ r ∈ s.delivered, r.err = false

/-- Only the reserved opcode answers an error, and where a run stops at it, it answers nothing. -/
theorem rspErr_eq_false_of_exec {s t : State} {i : Instr} (hstop : s.cfg.onIllegal = .stop)
    (h : exec i s = .next t) : t.eng.rspErr = false := by
  obtain ⟨e, rfl, ha⟩ := exec_next h
  cases i with
  | rsvd n =>
    obtain ⟨hanswer, -⟩ := execRsvd_next (n := n) h
    cases hanswer.symm.trans hstop
  | _ => exact congrArg Response.err ha.response

/-- A delivered response is the one presented, so no step brings an error answer. -/
theorem step_keeps_errorFree (s t : State) (h : ErrorFree s) (ht : step s = .next t) : ErrorFree t := by
  obtain ⟨-, rfl⟩ | ⟨-, -, -, rfl⟩ | ⟨-, -, -, -, rfl⟩ | ⟨-, -, hi, -, rfl⟩ | ⟨-, -, hi, -, rfl⟩ |
    ⟨-, -, -, -, he⟩ | ⟨-, -, hi, -, rfl⟩ | ⟨-, -, -, -, rfl⟩ := step_next ht
  · exact ⟨h.stops, fun hi => (by cases hi), h.delivered⟩
  · exact ⟨h.stops, h.presented, h.delivered⟩
  · exact ⟨h.stops, fun hi => (by cases hi), h.delivered⟩
  · exact ⟨h.stops, fun hi' => (by cases hi.symm.trans hi'), h.delivered⟩
  · exact ⟨h.stops, fun hi' => (by cases hi.symm.trans hi'), h.delivered⟩
  · have herr := rspErr_eq_false_of_exec (s := s.dropEdge) h.stops he
    obtain ⟨e, rfl, -⟩ := exec_next he
    exact ⟨h.stops, fun _ => herr, h.delivered⟩
  · refine ⟨h.stops, fun hi' => (by cases hi'), fun r hr => ?_⟩
    obtain hr | hr := List.mem_append.1 hr
    · exact h.delivered r hr
    · rw [List.mem_singleton.1 hr]
      exact h.presented hi
  · exact ⟨h.stops, h.presented, h.delivered⟩

/-- Settles O51: `ErrorFree` holds in `IDLE` and every step keeps it. -/
theorem stoppingRunsAreSafe : Obligations.StoppingRunsAreSafe := by
  intro n s t _ _ hstop hi hdel hrun
  have hs : ErrorFree s := ⟨hstop, fun hi' => (by cases hi.symm.trans hi'), hdel⟩
  exact ⟨t, hrun, (run_keeps step_keeps_errorFree hs hrun).delivered⟩

end Sys2Proof.Machine
end

section
/-! PROOF. Runs of more than one edge: a command after any number of further cycles, and sequences of commands as they
cross the ports (spec/20_memory.md R32, R39; spec/60_exceptions.md R67; spec/70_reset_and_hazards.md R84). -/

namespace Sys2Proof.Machine

variable {W : Nat}

/-- Settles O49, by induction on the further cycles: each keeps the latches and the divisor, and so the response to
come. -/
theorem acceptedCommandCompletes : Obligations.AcceptedCommandCompletes := by
  intro s xs
  induction hn : xs.length generalizing s xs with
  | zero =>
    intro y rest hI hl hc hi hedges _ hr hs
    obtain rfl := List.eq_nil_of_length_eq_zero hn
    obtain rfl : s.edge = y := State.edge_of_cons hedges
    obtain rfl : s.edges.tail = rest := congrArg List.tail hedges
    obtain ⟨e, hstep, hresp⟩ := step_of_completes hI hl hi hr hs hc
    exact ⟨e, s.draws, run_succ_of_step hstep, hresp⟩
  | succ n ih =>
    intro y rest hI hl hc hi hedges hxs hr hs
    obtain ⟨x, xs, rfl⟩ := List.exists_cons_of_length_eq_add_one hn
    obtain rfl : s.edge = x := State.edge_of_cons hedges
    obtain ⟨hxr, hxs'⟩ := hxs s.edge List.mem_cons_self
    have hstep := step_stall hxr hl hi hxs'
    have htail : s.dropEdge.loseResponse.edges = xs ++ y :: rest := congrArg List.tail hedges
    obtain ⟨e, k, hrun, hresp⟩ := ih s.dropEdge.loseResponse xs (Nat.succ.inj hn) y rest
      (stepKeepsTheInvariant _ _ hI hstep) hl hc hi htail (fun z hz => hxs z (List.mem_cons_of_mem _ hz)) hr hs
    exact ⟨e, k, (run_succ_of_step hstep).trans hrun, hresp⟩

/-! The edges of an exchange, each kind by itself. -/

/-- The host waits before it presents. -/
theorem run_idle_quiet {s : State} (hl : s.live = true) (hi : s.eng.ifState = .idle) (n : Nat)
    (rest : List (Edge s.cfg.W)) :
    ∃ (e : Engine s.cfg.W) (k : Nat),
      Host.Core.run Sys2Proof.core n { s with edges := List.replicate n Edge.quiet ++ rest } =
        .next { s with eng := e, edges := rest, draws := k } ∧
      e.ifState = .idle ∧ e.div = s.eng.div := by
  induction n generalizing s with
  | zero => exact ⟨s.eng, s.draws, rfl, hi, rfl⟩
  | succ n ih =>
    have hstep := step_idle (s := { s with edges := List.replicate (n + 1) Edge.quiet ++ rest }) rfl hl hi rfl
    obtain ⟨e, k, hrun, hidle, hdiv⟩ := ih (s := s.loseResponse) hl hi rest
    exact ⟨e, k, (run_succ_of_step hstep).trans hrun, hidle, hdiv⟩

/-- The host presents a command. -/
theorem step_present {s : State} (hl : s.live = true) (hi : s.eng.ifState = .idle) (i : Instr)
    (rest : List (Edge s.cfg.W)) :
    step { s with edges := Edge.present s.cfg.W i :: rest } =
      .next (State.accept { s with edges := rest } i.op (zextW s.cfg.W i.data)) :=
  step_accept (s := { s with edges := Edge.present s.cfg.W i :: rest }) rfl hl hi rfl

/-- The engine computes the latched command after `n` further cycles. -/
theorem run_busy {s : State} {i : Instr} (hI : Inv s) (hl : s.live = true) (hi : s.eng.ifState = .busy)
    (hlatched : decode s.eng.latched = i) (hc : completes s.cfg i = true) (n : Nat) (rest : List (Edge s.cfg.W)) :
    ∃ (e : Engine s.cfg.W) (k : Nat),
      Host.Core.run Sys2Proof.core (n + 1)
          { s with edges := List.replicate n Edge.stalled ++ Edge.quiet :: rest } =
        .next { s with eng := e, edges := rest, draws := k } ∧
      e.ifState = .resp ∧ e.response = ruleResponse s.eng.div i ∧ e.div = ruleDivisor s.eng.div i := by
  subst hlatched
  have h := acceptedCommandCompletes { s with edges := List.replicate n Edge.stalled ++ Edge.quiet :: rest }
    (List.replicate n Edge.stalled) Edge.quiet rest (hI.setEdges _) hl hc hi rfl
    (fun x hx => by rw [List.eq_of_mem_replicate hx]; exact ⟨rfl, rfl⟩) rfl rfl
  rwa [List.length_replicate] at h

/-- A command presented in `IDLE` and computed after `n` further cycles. -/
theorem run_command {s : State} {i : Instr} (hI : Inv s) (hl : s.live = true) (hi : s.eng.ifState = .idle)
    (hw : i.wellFormed s.cfg.W = true) (hc : completes s.cfg i = true) (n : Nat) (rest : List (Edge s.cfg.W)) :
    ∃ (e : Engine s.cfg.W) (k : Nat),
      Host.Core.run Sys2Proof.core (n + 1 + 1)
          { s with edges := Edge.present s.cfg.W i :: (List.replicate n Edge.stalled ++ Edge.quiet :: rest) } =
        .next { s with eng := e, edges := rest, draws := k } ∧
      e.ifState = .resp ∧ e.response = ruleResponse s.eng.div i ∧ e.div = ruleDivisor s.eng.div i := by
  have hpresent := step_present hl hi i (List.replicate n Edge.stalled ++ Edge.quiet :: rest)
  obtain ⟨e, k, hrun, hanswer⟩ := run_busy (s := s.accept i.op (zextW s.cfg.W i.data)) (hI.accept _ _) hl rfl
    (decode_encode hw) hc n rest
  exact ⟨e, k, (run_succ_of_step hpresent).trans hrun, hanswer⟩

/-- The host waits before it takes the response. -/
theorem run_resp_quiet {s : State} (hl : s.live = true) (hi : s.eng.ifState = .resp) (n : Nat)
    (rest : List (Edge s.cfg.W)) :
    Host.Core.run Sys2Proof.core n { s with edges := List.replicate n Edge.quiet ++ rest } =
      .next { s with edges := rest } := by
  induction n with
  | zero => rfl
  | succ n ih =>
    have hstep := step_hold (s := { s with edges := List.replicate (n + 1) Edge.quiet ++ rest }) rfl hl hi rfl
    exact (run_succ_of_step hstep).trans ih

/-- The host takes the response. -/
theorem step_take {s : State} (hl : s.live = true) (hi : s.eng.ifState = .resp) (rest : List (Edge s.cfg.W)) :
    step { s with edges := Edge.take :: rest } = .next (State.deliver { s with edges := rest }) :=
  step_deliver (s := { s with edges := Edge.take :: rest }) rfl hl hi rfl

/-! An exchange, and a list of them. -/

theorem Exchange.edges_length (W : Nat) (x : Exchange) :
    (x.edges W).length = x.idles + (x.stalls + 1 + 1 + (x.waits + 1)) := by
  simp [Exchange.edges]
  omega

theorem Exchange.edges_append (x : Exchange) (rest : List (Edge W)) :
    x.edges W ++ rest =
      List.replicate x.idles Edge.quiet ++ Edge.present W x.instr ::
        (List.replicate x.stalls Edge.stalled ++ Edge.quiet ::
          (List.replicate x.waits Edge.quiet ++ Edge.take :: rest)) := by
  simp [Exchange.edges]

/-- One exchange: the response of the command's rule is delivered, and the divisor is the one it leaves. -/
theorem run_exchange {s : State} {x : Exchange} (hI : Inv s) (hl : s.live = true) (hi : s.eng.ifState = .idle)
    (hw : x.instr.wellFormed s.cfg.W = true) (hc : completes s.cfg x.instr = true) (rest : List (Edge s.cfg.W)) :
    ∃ (e : Engine s.cfg.W) (k : Nat),
      Host.Core.run Sys2Proof.core (x.edges s.cfg.W).length { s with edges := x.edges s.cfg.W ++ rest } =
        .next { s with
          eng := e
          edges := rest
          delivered := s.delivered ++ [ruleResponse s.eng.div x.instr]
          draws := k } ∧
      e.ifState = .idle ∧ e.div = ruleDivisor s.eng.div x.instr := by
  rw [Exchange.edges_append, Exchange.edges_length]
  obtain ⟨e₁, k₁, hidles, hi₁, hdiv₁⟩ := run_idle_quiet hl hi x.idles
    (Edge.present s.cfg.W x.instr :: (List.replicate x.stalls Edge.stalled ++ Edge.quiet ::
      (List.replicate x.waits Edge.quiet ++ Edge.take :: rest)))
  have hI₁ := run_keeps stepKeepsTheInvariant (hI.setEdges _) hidles
  obtain ⟨e₂, k₂, hcommand, hi₂, hanswer, hdiv₂⟩ := run_command hI₁ hl hi₁ hw hc x.stalls
    (List.replicate x.waits Edge.quiet ++ Edge.take :: rest)
  have hwaits := run_resp_quiet (s := { s with eng := e₂, draws := k₂ }) hl hi₂ x.waits (Edge.take :: rest)
  have htake := step_take (s := { s with eng := e₂, draws := k₂ }) hl hi₂ rest
  refine ⟨Engine.loseResponse { e₂ with ifState := .idle } k₂, k₂ + 3, ?_, rfl,
    hdiv₂.trans (congrArg (ruleDivisor · x.instr) hdiv₁)⟩
  rw [run_add_of_run hidles, run_add_of_run hcommand, run_add_of_run hwaits, run_succ_of_step htake, ← hdiv₁,
    ← hanswer]
  rfl

/-- A list of exchanges: each leaves the engine in `IDLE`, under the divisor that the next one starts from. -/
theorem run_exchanges {s : State} {xs : List Exchange} (hI : Inv s) (hl : s.live = true)
    (hi : s.eng.ifState = .idle)
    (hxs : ∀ x ∈ xs, x.instr.wellFormed s.cfg.W = true ∧ completes s.cfg x.instr = true)
    (rest : List (Edge s.cfg.W)) :
    ∃ (e : Engine s.cfg.W) (k : Nat),
      Host.Core.run Sys2Proof.core (xs.flatMap (Exchange.edges s.cfg.W)).length
          { s with edges := xs.flatMap (Exchange.edges s.cfg.W) ++ rest } =
        .next { s with
          eng := e
          edges := rest
          delivered := s.delivered ++ sequentialResponses s.eng.div (xs.map Exchange.instr)
          draws := k } ∧
      e.ifState = .idle ∧ e.div = sequentialDivisor s.eng.div (xs.map Exchange.instr) := by
  induction xs generalizing s with
  | nil =>
    refine ⟨s.eng, s.draws, ?_, hi, rfl⟩
    rw [List.map_nil, sequentialResponses, List.append_nil]
    rfl
  | cons x xs ih =>
    obtain ⟨hw, hc⟩ := hxs x List.mem_cons_self
    obtain ⟨e₁, k₁, hfirst, hi₁, hdiv₁⟩ := run_exchange hI hl hi hw hc (xs.flatMap (Exchange.edges s.cfg.W) ++ rest)
    have hI₁ := run_keeps stepKeepsTheInvariant (hI.setEdges _) hfirst
    obtain ⟨e₂, k₂, hothers, hi₂, hdiv₂⟩ := ih hI₁ hl hi₁ (fun y hy => hxs y (List.mem_cons_of_mem x hy)) rest
    refine ⟨e₂, k₂, ?_, hi₂, hdiv₂.trans (by rw [hdiv₁]; rfl)⟩
    rw [List.flatMap_cons, List.length_append, List.append_assoc, run_add_of_run hfirst, hothers, hdiv₁,
      List.append_assoc]
    rfl

theorem State.setEdges_of_eq {s : State} {edges : List (Edge s.cfg.W)} (h : s.edges = edges) :
    { s with edges := edges } = s := by
  rw [← h]

/-- Settles O50: `run_exchanges` at the state's own edges. -/
theorem commandSequencesEqualTheSequentialReading : Obligations.CommandSequencesEqualTheSequentialReading := by
  intro s xs rest hI hl hi hxs hedges
  have hrun := run_exchanges hI hl hi hxs rest
  rwa [State.setEdges_of_eq hedges] at hrun

end Sys2Proof.Machine
end
